-- ==== Sys2Proof/Word.lean ====
section
/-! DEFINITION. The bit-vector types of the block: what the spec itself gives a width in bits. -/

namespace Sys2Proof

/-- One colour channel (`CH_W`) or one luminance value (`Y_W`): 8 bits, unsigned (R7). -/
abbrev Byte := BitVec 8

/-- The accumulator of LUMA: 18 bits (R7, R84). -/
abbrev Acc := BitVec 18

/-- An input beat on `in_data`, format IN26 (R60). -/
abbrev InWord := BitVec 26

/-- An output beat on `out_data`, format OUT10 (R62). -/
abbrev OutWord := BitVec 10

/-- The control vector of a cycle, format CTL4 (R66). -/
abbrev Ctl := BitVec 4

/-- A stimulus word `rst, in_valid, out_ready, in_data` (R71). -/
abbrev StimWord := BitVec 29

/-- The model's instruction word: `in_data` above the four bits of CTL4 (notes/assumptions/1.md). -/
abbrev OpWord := BitVec 30

end Sys2Proof
end

