-- ==== Sys2Proof/Config.lean ====
section
/-! DEFINITION. What is fixed for one implementation of the block: the constants of R28 and R7, the tie policies of R87,
and the values the spec leaves free, as constants without a body. -/

namespace Sys2Proof

/-- The values of the parameter `LUMA_TIE_POLICY` (R87; `draw` is the alternative of D9, `92_eei_decisions.md`). -/
inductive TiePolicy where
  /-- Round half up: the spec's default (R7, R87). -/
  | up
  /-- Round half to even (R87). -/
  | even
  /-- The IEEE 754 binary64 expression of R87. -/
  | float64Ref
  /-- On a tie either neighbour, and nothing says which (D9). -/
  | draw
deriving DecidableEq, Repr

namespace Config

/-- `W_R`: the weight of R in thousandths (R28). -/
def wR : Nat := 299

/-- `W_G`: the weight of G in thousandths (R28). -/
def wG : Nat := 587

/-- `W_B`: the weight of B in thousandths (R28). -/
def wB : Nat := 114

/-- `DEN`: the denominator of the weights (R28). -/
def den : Nat := 1000

/-- `HALF`: `DEN div 2`, the rounding offset (R28). -/
def half : Nat := 500

/-- `FRAME_W`: pixels per row in the system; the block does not depend on it (R7, R8). -/
def frameW : Nat := 384

/-- `DEPTH` of the reference micro-architecture (R7). -/
def depth : Nat := 1

/-- `LATENCY` of the reference micro-architecture, in cycles (R7). -/
def latency : Nat := 1

/-- DESIGN CHOICE (notes/assumptions/4.md): `oy` after reset is a draw (R26), here a constant without a body. -/
opaque resetOy : Byte

/-- DESIGN CHOICE (notes/assumptions/4.md): `osof` after reset is a draw (R27). -/
opaque resetOsof : Bool

/-- DESIGN CHOICE (notes/assumptions/4.md): `oeol` after reset is a draw (R27). -/
opaque resetOeol : Bool

/-- DESIGN CHOICE (notes/assumptions/2.md): what the environment drives in the `n`-th cycle for which State lists no
stimulus, as a stimulus word of R71; the spec leaves every input to the environment (R16). -/
opaque freeStimulus : Nat → StimWord

/-- DESIGN CHOICE (notes/assumptions/8.md): under the policy `draw`, whether a tie triple goes to the upper neighbour
(D9); a function of the triple alone, because LUMA is pure (R90). -/
opaque tieDraw : Byte → Byte → Byte → Bool

end Config

end Sys2Proof
end

