-- ==== Sys2Proof/Syntax.lean ====
section
/-! DEFINITION. The syntax of the block: an input beat, the inputs of one cycle, a raster, and the six cycle
operations of R3, one constructor per row of spec/opcode_table.json. -/

namespace Sys2Proof

/-- An input beat with its fields taken apart (R60, R63). -/
structure InBeat where
  sof : Bool
  eol : Bool
  r : Byte
  g : Byte
  b : Byte
deriving DecidableEq, Repr

/-- The inputs of one cycle: what the environment, the producer and the consumer drive (R20, R30, R36). Every port is
two-valued (R31), so no field can hold an X or a Z. -/
structure CycleInputs where
  rst : Bool
  inValid : Bool
  outReady : Bool
  inData : InWord
deriving DecidableEq, Repr

/-- One opaque pixel of a raster (R14, R61). -/
structure Pixel where
  r : Byte
  g : Byte
  b : Byte
deriving DecidableEq, Repr

/-- A raster of `width` columns: its rows from the top, each row from the left (R14, R124). -/
structure Raster where
  width : Nat
  rows : List (List Pixel)
deriving DecidableEq, Repr

/-- The six cycle operations (R3, R67). `in_data` is the operand of ACCEPT and PASS and of no other operation (R66,
R111). -/
inductive Instr where
  /-- RESET (R101). -/
  | reset
  /-- IDLE (R102). -/
  | idle
  /-- ACCEPT of the offered beat (R103). -/
  | accept (beat : InBeat)
  /-- STALL (R104). -/
  | stall
  /-- EMIT (R105). -/
  | emit
  /-- PASS: the held value goes out and the offered beat comes in (R106). -/
  | pass (beat : InBeat)
deriving DecidableEq, Repr

/-- The operation's name in spec/opcode_table.json. -/
def Instr.mnemonic : Instr → String
  | .reset => "RESET"
  | .idle => "IDLE"
  | .accept _ => "ACCEPT"
  | .stall => "STALL"
  | .emit => "EMIT"
  | .pass _ => "PASS"

/-- The beat an operation takes in, where it takes one (R103, R106, R111). -/
def Instr.operand : Instr → Option InBeat
  | .accept beat => some beat
  | .pass beat => some beat
  | .reset => none
  | .idle => none
  | .stall => none
  | .emit => none

end Sys2Proof
end

