-- ==== Sys2Proof/WellFormed.lean ====
section
/-! DEFINITION. The checks of well-formedness. Every operation with every operand is legal (R60, R68), so the check of
an instruction refuses nothing; a raster and a marked frame have a shape (R124, R126). -/

namespace Sys2Proof

/-- No encoding is reserved or illegal and every beat is a legal pixel (R60, R68): each constructor is listed, so that
a new one cannot slip past. -/
def Instr.wf : Instr → Bool
  | .reset => true
  | .idle => true
  | .accept _ => true
  | .stall => true
  | .emit => true
  | .pass _ => true

/-- A raster has at least one column and one row, and every row has `width` pixels (R124). -/
def Raster.wf (f : Raster) : Bool :=
  decide (1 ≤ f.width) && decide (1 ≤ f.rows.length) && f.rows.all fun row => row.length == f.width

/-- The beats mark a frame of `w` columns and `h` rows: `sof` on index 0 alone, `eol` exactly on the last column
(R124). A stream that fails this check is converted all the same, and has no meaning as a frame (R126). -/
def wellFramed (w h : Nat) (beats : List InBeat) : Bool :=
  decide (1 ≤ w) && decide (1 ≤ h) && beats.length == w * h &&
    (beats.zipIdx.all fun (beat, k) => beat.sof == (k == 0) && beat.eol == (k % w == w - 1))

end Sys2Proof
end

