-- ==== Sys2Proof/Decode.lean ====
section
/-! DEFINITION. From bits to beats, cycle inputs and operations, and back: the formats IN26, OUT10 and CTL4 of
`30_encoding.md`, the operation map of R67 with its total decoder, the encoder, and the 29-bit stimulus word of R71. -/

namespace Sys2Proof

/-! ### The input beat, format IN26 -/

/-- The operand slices of R63: `sof` is bit 25, `eol` bit 24, `r` bits 23:16, `g` bits 15:8, `b` bits 7:0. -/
def InBeat.ofWord (w : InWord) : InBeat where
  sof := w.getLsbD 25
  eol := w.getLsbD 24
  r := w.extractLsb' 16 8
  g := w.extractLsb' 8 8
  b := w.extractLsb' 0 8

/-- The layout of R60: `sof, eol, r, g, b`, the first in the most significant place. -/
def InBeat.toWord (beat : InBeat) : InWord :=
  BitVec.ofBool beat.sof ++ (BitVec.ofBool beat.eol ++ (beat.r ++ (beat.g ++ beat.b)))

/-! ### The output beat, format OUT10 -/

/-- The layout of R62: `sof` is bit 9, `eol` bit 8, `y` bits 7:0. -/
def outWord (sof eol : Bool) (y : Byte) : OutWord :=
  BitVec.ofBool sof ++ (BitVec.ofBool eol ++ y)

/-! ### The control vector, format CTL4, and the operation map -/

/-- The layout of R66: `rst` is bit 3, `ov` bit 2, `in_valid` bit 1, `out_ready` bit 0. -/
def ctlWord (rst ov inValid outReady : Bool) : Ctl :=
  BitVec.ofBool rst ++ (BitVec.ofBool ov ++ (BitVec.ofBool inValid ++ BitVec.ofBool outReady))

/-- The decoder: the pattern column of R67, bit for bit. It is total, since the map is complete (R69), and it rejects
nothing, since no encoding is reserved (R68). -/
def decode (ctl : Ctl) (inData : InWord) : Instr :=
  match ctl.getLsbD 3, ctl.getLsbD 2, ctl.getLsbD 1, ctl.getLsbD 0 with
  | true, _, _, _ => .reset
  | false, false, false, _ => .idle
  | false, false, true, _ => .accept (InBeat.ofWord inData)
  | false, true, _, false => .stall
  | false, true, false, true => .emit
  | false, true, true, true => .pass (InBeat.ofWord inData)

/-- A row of the operation map: it selects its operation when `(ctl & mask) = pattern` (R67). -/
structure OpRow where
  mnemonic : String
  pattern : Ctl
  mask : Ctl
deriving DecidableEq, Repr

/-- Whether a row selects its operation for a control vector (R67). -/
def OpRow.selects (row : OpRow) (ctl : Ctl) : Bool :=
  ctl &&& row.mask == row.pattern

/-- The row of an operation: the match and mask columns of R67. -/
def Instr.row : Instr → OpRow
  | .reset => ⟨"RESET", 0x8, 0x8⟩
  | .idle => ⟨"IDLE", 0x0, 0xE⟩
  | .accept _ => ⟨"ACCEPT", 0x2, 0xE⟩
  | .stall => ⟨"STALL", 0x4, 0xD⟩
  | .emit => ⟨"EMIT", 0x5, 0xF⟩
  | .pass _ => ⟨"PASS", 0x7, 0xF⟩

/-- The operation map of R67, row by row. -/
def opTable : List OpRow :=
  let any : InBeat := InBeat.ofWord 0
  [Instr.reset.row, Instr.idle.row, (Instr.accept any).row, Instr.stall.row, Instr.emit.row, (Instr.pass any).row]

/-! ### The model's instruction word: `in_data` above CTL4 (notes/assumptions/1.md) -/

/-- The control vector of an instruction word. -/
def OpWord.ctl (w : OpWord) : Ctl := w.extractLsb' 0 4

/-- The `in_data` of an instruction word. -/
def OpWord.inData (w : OpWord) : InWord := w.extractLsb' 4 26

/-- An instruction word from its two parts. -/
def OpWord.make (inData : InWord) (ctl : Ctl) : OpWord := inData ++ ctl

/-- The operation an instruction word stands for. -/
def decodeWord (w : OpWord) : Instr := decode (OpWord.ctl w) (OpWord.inData w)

/-- The encoder: an operation's pattern with its don't-care bits taken from `dontCare`. Of an operation without an
operand the bits of `in_data` are don't-care bits too (R111). -/
def encode (i : Instr) (dontCare : OpWord) : OpWord :=
  let ctl := i.row.pattern ||| (OpWord.ctl dontCare &&& ~~~i.row.mask)
  match i.operand with
  | some beat => OpWord.make beat.toWord ctl
  | none => OpWord.make (OpWord.inData dontCare) ctl

/-- Why bits or a line of text stand for nothing in this model. -/
inductive Reject where
  /-- A number that is not a word of the fixed format it is read in (R70). -/
  | wordTooWide
  /-- An X or a Z on a port (R31, R68). -/
  | notTwoValued
  /-- Text that is no line of the notation of R71 and R72. -/
  | malformedLine
  /-- An environment whose `out_ready` depends on `in_ready` within the cycle (R170). -/
  | combinationalLoop
deriving DecidableEq, Repr

/-- Reading an instruction word from a number: any number that is no 30-bit word is rejected by name. -/
def decodeNat (w : Nat) : Except Reject Instr :=
  if w < 2 ^ 30 then .ok (decodeWord (BitVec.ofNat 30 w)) else .error .wordTooWide

/-- The operation read from a row of spec/opcode_table.json: its `nbits` bits are `w`, every bit above them is 0. -/
def decodeTableWord (nbits w : Nat) : Option Instr :=
  match decodeNat (w % 2 ^ nbits) with
  | .ok i => some i
  | .error _ => none

/-! ### The stimulus word of R71 -/

/-- R71: bit 28 is `rst`, bit 27 `in_valid`, bit 26 `out_ready`, bits 25:0 are `in_data`. -/
def CycleInputs.ofStimWord (w : StimWord) : CycleInputs where
  rst := w.getLsbD 28
  inValid := w.getLsbD 27
  outReady := w.getLsbD 26
  inData := w.extractLsb' 0 26

/-- R71: the stimulus word `rst, in_valid, out_ready, in_data` of a cycle. -/
def CycleInputs.toStimWord (c : CycleInputs) : StimWord :=
  BitVec.ofBool c.rst ++ (BitVec.ofBool c.inValid ++ (BitVec.ofBool c.outReady ++ c.inData))

/-- Reading a stimulus word from a number: any number that is no 29-bit word is rejected by name. -/
def stimNat (w : Nat) : Except Reject CycleInputs :=
  if w < 2 ^ 29 then .ok (CycleInputs.ofStimWord (BitVec.ofNat 29 w)) else .error .wordTooWide

end Sys2Proof
end

