-- ==== Sys2Proof/Machine/State.lean ====
section
/-! DEFINITION. The state of the machine as plain data, its state after reset, and the reasons a step could stop. -/

namespace Sys2Proof.Machine

/-- The state. The first four fields are the block's complete architectural state (R20); the others are the model's own:
a build-time parameter, the environment's drives and the two lists of R120. -/
structure State where
  /-- `ov`: the register holds a value not yet delivered (R24, R25). -/
  ov : Bool
  /-- `oy`: LUMA of the last accepted pixel (R24, R26). -/
  oy : Byte
  /-- `osof`: the `sof` bit of the last accepted pixel (R24, R27). -/
  osof : Bool
  /-- `oeol`: the `eol` bit of the last accepted pixel (R24, R27). -/
  oeol : Bool
  /-- `LUMA_TIE_POLICY`, a parameter of the implementation that no step writes (R7, R87; notes/assumptions/6.md). -/
  tiePolicy : TiePolicy
  /-- What the environment drives in this cycle and the coming ones, this cycle's drives first (R16, R36;
  notes/assumptions/2.md). -/
  stimulus : List CycleInputs
  /-- How many cycles the environment has been left free (notes/assumptions/2.md). -/
  draws : Nat
  /-- `In`: the beats accepted since the last reset edge, oldest first (R120; notes/assumptions/9.md). -/
  accepted : List InBeat
  /-- `Out`: the beats delivered since the last reset edge, oldest first (R120; notes/assumptions/9.md). -/
  delivered : List OutWord
deriving DecidableEq, Repr

/-- The reasons a step could fault. There is none: the block raises no exception and has no trap (R140 to R147). -/
inductive Fault where
deriving DecidableEq, Repr

/-- The reasons a step could be refused. -/
inductive Refusal where
  /-- Raised by `exec` alone, for an operation without a meaning, and safe: the model then proves nothing of it. Every
  operation of this model has its meaning, so nothing raises it. -/
  | notModelled (mnemonic : String)
deriving DecidableEq, Repr

/-- The state after a reset edge (R34, R164). `ov` is 0; the data fields are draws (R26, R27; notes/assumptions/4.md);
the lists of R120 are empty (R162); the tie policy is the spec's default (R7); no drive of the environment is listed. -/
def State.reset : State where
  ov := false
  oy := Config.resetOy
  osof := Config.resetOsof
  oeol := Config.resetOeol
  tiePolicy := .up
  stimulus := []
  draws := 0
  accepted := []
  delivered := []

end Sys2Proof.Machine
end

