-- ==== Sys2Proof/Machine/Operands.lean ====
section
/-! DEFINITION. The operands of a cycle: the ports' values in the current cycle, the control vector, the operation it
selects, and the extension of a channel to the accumulator. -/

namespace Sys2Proof.Machine

/-- The inputs of the current cycle: the head of the environment's list, or a free value where the list is empty
(R16, R30; notes/assumptions/2.md). -/
def State.inputs (s : State) : CycleInputs :=
  match s.stimulus with
  | [] => CycleInputs.ofStimWord (Config.freeStimulus s.draws)
  | now :: _ => now

/-- The control vector of the current cycle (R66). -/
def State.ctl (s : State) : Ctl :=
  ctlWord s.inputs.rst s.ov s.inputs.inValid s.inputs.outReady

/-- The operation of the current cycle, selected by the control vector alone, with `in_data` as operand (R66, R67). -/
def State.currentInstr (s : State) : Instr :=
  decode s.ctl s.inputs.inData

/-- The beat on `in_data` in the current cycle (R63). -/
def State.offeredBeat (s : State) : InBeat :=
  InBeat.ofWord s.inputs.inData

/-- The inputs of a cycle that an instruction word gives: the bits of CTL4 but `ov`, and `in_data` (R66). -/
def cycleOfOpWord (w : OpWord) : CycleInputs where
  rst := (OpWord.ctl w).getLsbD 3
  inValid := (OpWord.ctl w).getLsbD 1
  outReady := (OpWord.ctl w).getLsbD 0
  inData := OpWord.inData w

/-- Zero extension of a channel to the 18-bit accumulator (R63). -/
def zext18 (v : Byte) : Acc := v.setWidth 18

end Sys2Proof.Machine
end

