-- ==== Sys2Proof/Machine/Flags.lean ====
section
/-! DEFINITION. The block has no flags, condition codes or status bits (R23). What a host sees of its status in a cycle
are the port equations of R100, which stand here. -/

namespace Sys2Proof.Machine

/-- `in_ready = (not rst) and ((not ov) or out_ready)` (R100), as an equation over plain signals. -/
def inReadyOf (rst ov outReady : Bool) : Bool := !rst && (!ov || outReady)

/-- `out_valid = (not rst) and ov` (R100), as an equation over plain signals. -/
def outValidOf (rst ov : Bool) : Bool := !rst && ov

/-- The port `in_ready` in the current cycle (R100). -/
def State.inReady (s : State) : Bool := inReadyOf s.inputs.rst s.ov s.inputs.outReady

/-- The port `out_valid` in the current cycle (R100). -/
def State.outValid (s : State) : Bool := outValidOf s.inputs.rst s.ov

/-- The port `out_data = {osof, oeol, oy}`, driven in every cycle (R65, R100). -/
def State.outData (s : State) : OutWord := outWord s.osof s.oeol s.oy

/-- `in_fire = in_valid and in_ready` (R13, R100). -/
def State.inFire (s : State) : Bool := s.inputs.inValid && s.inReady

/-- `out_fire = out_valid and out_ready` (R13, R100). -/
def State.outFire (s : State) : Bool := s.outValid && s.inputs.outReady

end Sys2Proof.Machine
end

