-- ==== Sys2Proof/Machine/Luma.lean ====
section
/-! DEFINITION. The luminance function LUMA of `40_luma_function.md`: the weighted sum, rounding to nearest with its tie
policies, and the clamp. -/

namespace Sys2Proof.Machine

/-- `S = 299 * zext_18(r) + 587 * zext_18(g) + 114 * zext_18(b)`, in 18 bits (R83). -/
def weightedSum (r g b : Byte) : Acc :=
  BitVec.ofNat 18 Config.wR * zext18 r + BitVec.ofNat 18 Config.wG * zext18 g + BitVec.ofNat 18 Config.wB * zext18 b

/-- `q0 = S div 1000`, the lower neighbour (R87). -/
def lowerNeighbour (S : Acc) : Acc := S / BitVec.ofNat 18 Config.den

/-- `(S + 500) div 1000`: round half up (R83). -/
def roundHalfUp (S : Acc) : Acc := (S + BitVec.ofNat 18 Config.half) / BitVec.ofNat 18 Config.den

/-- The tie set `T`: `S mod 1000 = 500` (R86). -/
def isTie (S : Acc) : Bool := S % BitVec.ofNat 18 Config.den == BitVec.ofNat 18 Config.half

/-! ### The binary64 reference (R87)

A binary64 value is held as a natural number of units of 2^-56. The smallest nonzero value of the expression is the
literal 0.114, whose last place is exactly 2^-56, so every value that occurs is a whole number of units and is normal. -/

/-- Round the value `num / den` units of 2^-56 to 53 significant bits, to nearest and ties to even (R87). -/
def roundBinary64 (num den : Nat) : Nat :=
  let ulp := 2 ^ (Nat.log2 (num / den) + 1 - 53)
  let low := num / (den * ulp)
  let rest := num % (den * ulp)
  let up := den * ulp < 2 * rest || (2 * rest == den * ulp && low % 2 == 1)
  (if up then low + 1 else low) * ulp

/-- A decimal literal of `k` thousandths as the nearest binary64 value (R87). -/
def literal64 (k : Nat) : Nat := roundBinary64 (k * 2 ^ 56) 1000

/-- `x` of R87: `(0.299*r + 0.587*g) + 0.114*b`, each product and sum rounded, from left to right. -/
def luma64 (r g b : Nat) : Nat :=
  let pr := roundBinary64 (literal64 Config.wR * r) 1
  let pg := roundBinary64 (literal64 Config.wG * g) 1
  let pb := roundBinary64 (literal64 Config.wB * b) 1
  roundBinary64 (roundBinary64 (pr + pg) 1 + pb) 1

/-- `floor(x + 0.5)` of R87; the sum is rounded as every sum is (notes/assumptions/7.md). -/
def floorPlusHalf64 (x : Nat) : Nat := roundBinary64 (x + 2 ^ 55) 1 / 2 ^ 56

/-! ### The function -/

/-- The rounded value `q` before the clamp, by tie policy (R83, R87). -/
def roundedSum (p : TiePolicy) (r g b : Byte) : Acc :=
  let S := weightedSum r g b
  let q0 := lowerNeighbour S
  match p with
  | .up => roundHalfUp S
  | .even => if isTie S then (if q0.getLsbD 0 then q0 + 1 else q0) else roundHalfUp S
  | .float64Ref => BitVec.ofNat 18 (floorPlusHalf64 (luma64 r.toNat g.toNat b.toNat))
  | .draw => if isTie S then (if Config.tieDraw r g b then q0 + 1 else q0) else roundHalfUp S

/-- `clamp(v, lo, hi)` (R10). -/
def clamp (v lo hi : Nat) : Nat := if v < lo then lo else if hi < v then hi else v

/-- LUMA (R83): `y = clamp(q, 0, 255)[7:0]`. -/
def luma (p : TiePolicy) (r g b : Byte) : Byte :=
  BitVec.ofNat 8 (clamp (roundedSum p r g b).toNat 0 255)

/-- `F(beat) = {beat.sof, beat.eol, LUMA(beat.r, beat.g, beat.b)}` (R120). -/
def beatImage (p : TiePolicy) (beat : InBeat) : OutWord :=
  outWord beat.sof beat.eol (luma p beat.r beat.g beat.b)

end Sys2Proof.Machine
end

