-- ==== Sys2Proof/Machine/Ops.lean ====
section
/-! DEFINITION. The operations the six meanings share. The block has no memory (R40) and takes no exception (R145), so
there is no memory operation and no exception entry among them: the shared operations are the two transfers and the
discard of a reset. -/

namespace Sys2Proof.Machine

/-- An input transfer: the register takes the beat, whole, at one edge (R44, R103), and the beat joins `In` (R120). -/
def State.load (beat : InBeat) (s : State) : State :=
  { s with
    ov := true
    oy := luma s.tiePolicy beat.r beat.g beat.b
    osof := beat.sof
    oeol := beat.eol
    accepted := s.accepted ++ [beat] }

/-- An output transfer: `out_data`, as held during the cycle, joins `Out` (R44, R120), and the register is empty; the
data fields hold (R105). -/
def State.deliver (s : State) : State :=
  { s with
    ov := false
    delivered := s.delivered ++ [s.outData] }

/-- The reset edge: the register is empty, its data fields are not written (R101), and `In` and `Out` restart empty
(R162). -/
def State.discard (s : State) : State :=
  { s with
    ov := false
    accepted := []
    delivered := [] }

/-- The clock goes on to the next cycle: the environment's next drives are on the ports (R16; notes/assumptions/2.md). -/
def State.nextCycle (s : State) : State :=
  match s.stimulus with
  | [] => { s with draws := s.draws + 1 }
  | _ :: rest => { s with stimulus := rest }

end Sys2Proof.Machine
end

