-- ==== Sys2Proof/Machine/Cycle.lean ====
section
/-! DEFINITION. The meanings of the six cycle operations (R101 to R106), and the one function of R107 they combine to. -/

namespace Sys2Proof.Machine

/-- RESET (R101): `ov <- 0`; the held pixel is discarded and the lists of R120 restart (R162). -/
def execReset (s : State) : Host.Outcome State Fault Refusal := .next s.discard

/-- IDLE (R102): nothing is written. -/
def execIdle (s : State) : Host.Outcome State Fault Refusal := .next s

/-- ACCEPT (R103): the register takes the beat. -/
def execAccept (beat : InBeat) (s : State) : Host.Outcome State Fault Refusal := .next (s.load beat)

/-- STALL (R104): nothing is written. -/
def execStall (s : State) : Host.Outcome State Fault Refusal := .next s

/-- EMIT (R105): the held value is delivered. -/
def execEmit (s : State) : Host.Outcome State Fault Refusal := .next s.deliver

/-- PASS (R106): the value held during the cycle is delivered, and the register takes the beat. -/
def execPass (beat : InBeat) (s : State) : Host.Outcome State Fault Refusal := .next (s.deliver.load beat)

/-- What one edge does to the register, and the beat delivered in the cycle. -/
structure Edge where
  ov : Bool
  oy : Byte
  osof : Bool
  oeol : Bool
  delivered : Option OutWord
deriving DecidableEq, Repr

/-- The next-state function of R107, written from its own pseudocode and not from the six meanings. -/
def combinedEdge (p : TiePolicy) (c : CycleInputs) (ov : Bool) (oy : Byte) (osof oeol : Bool) : Edge :=
  if c.rst then ⟨false, oy, osof, oeol, none⟩
  else
    let inFire := c.inValid && (!ov || c.outReady)
    let outFire := ov && c.outReady
    let delivered := if outFire then some (outWord osof oeol oy) else none
    if inFire then
      ⟨true, luma p (c.inData.extractLsb' 16 8) (c.inData.extractLsb' 8 8) (c.inData.extractLsb' 0 8),
        c.inData.getLsbD 25, c.inData.getLsbD 24, delivered⟩
    else if outFire then ⟨false, oy, osof, oeol, delivered⟩
    else ⟨ov, oy, osof, oeol, delivered⟩

end Sys2Proof.Machine
end

