-- ==== Sys2Proof/Machine/Dispatch.lean ====
section
/-! DEFINITION. The dispatch of an operation to its meaning. -/

namespace Sys2Proof.Machine

/-- One arm per cycle operation of R3. -/
def exec (i : Instr) (s : State) : Host.Outcome State Fault Refusal :=
  match i with
  | .reset => Sys2Proof.Machine.execReset s
  | .idle => Sys2Proof.Machine.execIdle s
  | .accept beat => Sys2Proof.Machine.execAccept beat s
  | .stall => Sys2Proof.Machine.execStall s
  | .emit => Sys2Proof.Machine.execEmit s
  | .pass beat => Sys2Proof.Machine.execPass beat s

end Sys2Proof.Machine
end

