-- ==== Sys2Proof/Machine/Step.lean ====
section
/-! DEFINITION. One step of the machine: one clock cycle and the rising edge that ends it. -/

namespace Sys2Proof.Machine

/-- One clock cycle (R16): the control vector selects one operation (R67), it runs, and the next cycle begins. -/
def step (s : State) : Host.Outcome State Fault Refusal :=
  match exec s.currentInstr s with
  | .next t => .next t.nextCycle
  | .fault f => .fault f
  | .refused r => .refused r

/-- The state whose very next step runs the instruction word `w`: the current cycle is the one in which the environment
drives the word's `rst`, `in_valid`, `out_ready` and `in_data`, and `ov`, the one bit of the control vector that is a
register, is the word's bit 2 (notes/assumptions/3.md). -/
def State.withFetchWord (s : State) (nbits w : Nat) : State :=
  let word : OpWord := BitVec.ofNat 30 (w % 2 ^ nbits)
  { s with
    ov := (OpWord.ctl word).getLsbD 2
    stimulus := cycleOfOpWord word :: s.stimulus }

end Sys2Proof.Machine
end

