-- ==== Sys2Proof/Machine/Environment.lean ====
section
/-! DEFINITION. The agents outside the block in one cycle: their duties as predicates (R150, R152, R153), and a
producer and a consumer that react to the block within the cycle, resolved into the cycle's inputs (R151, R170). -/

namespace Sys2Proof.Machine

/-- The producer's duty under the portable contract, from one cycle to the next: a pixel offered and not taken is still
offered, unchanged (R150). The block itself does not need it. -/
def offerHeld (s t : State) : Bool :=
  !(s.inputs.inValid && !s.inReady) || (t.inputs.inValid && t.inputs.inData == s.inputs.inData)

/-- What the consumer may take as a beat in a cycle: `out_data` in a cycle with `out_valid` and `out_ready`, and nothing
in any other (R152). -/
def State.takenBeat (s : State) : Option OutWord := if s.outFire then some s.outData else none

/-- The block is drained, as a host sees it: `out_valid = 0` with `rst = 0` (R49, R131). -/
def State.seenDrained (s : State) : Bool := !s.inputs.rst && !s.outValid

/-- The producer as a combinational function of the cycle: it may see `in_ready`, the two outputs, and `out_ready`; it
answers `in_valid` and `in_data`. -/
abbrev Producer := (inReady outValid : Bool) → (outData : OutWord) → (outReady : Bool) → Bool × InWord

/-- The consumer as a combinational function of the cycle: it may see `in_ready`, the two outputs, and the producer's
`in_valid` and `in_data`; it answers `out_ready`. -/
abbrev Consumer := (inReady outValid : Bool) → (outData : OutWord) → (offer : Bool × InWord) → Bool

/-- The `out_ready` that the environment answers to a value of `in_ready` and of `out_ready` on its wires, through every
path it has: directly, and through the producer's `in_valid` and `in_data` (R151, R170). -/
def State.outReadyAnswer (s : State) (rst : Bool) (producer : Producer) (consumer : Consumer)
    (inReady outReady : Bool) : Bool :=
  let outValid := outValidOf rst s.ov
  consumer inReady outValid s.outData (producer inReady outValid s.outData outReady)

/-- The inputs of a cycle in which the producer and the consumer react to the block and to each other within the cycle.
An environment with a path from `in_ready` to `out_ready`, or from `out_ready` to itself, closes a loop, which has no
defined value, and is refused by name (R151, R170; notes/assumptions/12.md). -/
def resolveCycle (s : State) (rst : Bool) (producer : Producer) (consumer : Consumer) : Except Reject CycleInputs :=
  let answer := s.outReadyAnswer rst producer consumer
  let outReady := answer true true
  if answer true false = outReady ∧ answer false true = outReady ∧ answer false false = outReady then
    let (inValid, inData) := producer (inReadyOf rst s.ov outReady) (outValidOf rst s.ov) s.outData outReady
    .ok ⟨rst, inValid, outReady, inData⟩
  else .error .combinationalLoop

end Sys2Proof.Machine
end

