-- ==== Sys2Proof/Machine/Frame.lean ====
section
/-! DEFINITION. The frame level of `42_stream_and_frame.md`: how a raster is presented as beats, and the Luminance Plane
it stands for. `W` and `H` are arguments here and no state of the block (R8, R29). -/

namespace Sys2Proof.Machine

/-- The beats of one row: `sof` on the first pixel of row 0, `eol` on the last column (R124). -/
def rowBeats (width y : Nat) (row : List Pixel) : List InBeat :=
  row.zipIdx.map fun (px, x) => ⟨x == 0 && y == 0, x == width - 1, px.r, px.g, px.b⟩

/-- The beats of a raster, in row-major order (R124). -/
def rasterBeats (f : Raster) : List InBeat :=
  f.rows.zipIdx.flatMap fun (row, y) => rowBeats f.width y row

/-- The pixel at column `x` of row `y` (R124). -/
def pixelAt (f : Raster) (x y : Nat) : Option Pixel := f.rows[y]?.bind fun row => row[x]?

/-- STB's Luminance Plane: `P[y][x] = LUMA(R[y][x], G[y][x], B[y][x])` (R125). -/
def luminancePlane (p : TiePolicy) (f : Raster) : List (List Byte) :=
  f.rows.map fun row => row.map fun px => luma p px.r px.g px.b

/-- An output beat that starts a frame: `sof = 1`, bit 9 of OUT10 (R15, R62). -/
def startsFrame (w : OutWord) : Bool := w.getLsbD 9

/-- The beats of frame `n`, counted from 0, among delivered beats: from the `n`-th beat with `sof = 1` up to the next such
beat, which belongs to the next frame (R15; notes/assumptions/20.md). Empty where no such frame has begun. -/
def frameOf : Nat → List OutWord → List OutWord
  | _, [] => []
  | 0, w :: rest => if startsFrame w then w :: rest.takeWhile (fun v => !startsFrame v) else frameOf 0 rest
  | n + 1, w :: rest => if startsFrame w then frameOf n rest else frameOf (n + 1) rest

/-- The end of frame `n`, of `w` columns and `h` rows: the consumer has received its `w * h`-th output beat counted from
its beat with `sof = 1` (R131). -/
def frameComplete (w h n : Nat) (delivered : List OutWord) : Bool :=
  !(frameOf n delivered).isEmpty && decide (w * h ≤ (frameOf n delivered).length)

end Sys2Proof.Machine
end

