-- ==== Sys2Proof/Machine/Stimulus.lean ====
section
/-! DEFINITION. The stimulus notation of R71 and R72: its lines, what each line drives, and the reader of its text, which
refuses by name what is no line and an X or a Z on a port (R68). -/

namespace Sys2Proof.Machine

/-- A line of the notation: a cycle line (R71) or a pseudo-instruction (R72). -/
inductive StimLine where
  | cycle (rst inValid outReady : Bool) (beat : InBeat)
  | reset
  | idle
  | send (beat : InBeat)
  | hold (beat : InBeat)
  | block
deriving DecidableEq, Repr

/-- A line with its repetition `xN`; a line without one stands for one copy (R72). -/
structure StimEntry where
  line : StimLine
  copies : Nat
deriving DecidableEq, Repr

/-- The beat of a line without `RRGGBB`, `S` and `E`: all zero (R71). -/
def noBeat : InBeat := InBeat.ofWord 0

/-- What a line drives in its one cycle: the expansion column of R72, and a cycle line as it stands (R71). -/
def StimLine.drives : StimLine → CycleInputs
  | .cycle rst inValid outReady beat => ⟨rst, inValid, outReady, beat.toWord⟩
  | .reset => ⟨true, false, false, noBeat.toWord⟩
  | .idle => ⟨false, false, true, noBeat.toWord⟩
  | .send beat => ⟨false, true, true, beat.toWord⟩
  | .hold beat => ⟨false, true, false, beat.toWord⟩
  | .block => ⟨false, false, false, noBeat.toWord⟩

/-- The cycles an entry stands for: `N` copies of its line (R72). -/
def StimEntry.cycles (e : StimEntry) : List CycleInputs := List.replicate e.copies e.line.drives

/-! ### The reader (notes/assumptions/16.md) -/

/-- The words of a line: what stands between spaces; `word` holds the letters of the current word, last first. -/
def wordsOf : List Char → List Char → List (List Char)
  | [], [] => []
  | [], word => [word.reverse]
  | c :: rest, word =>
    if c = ' ' then (if word = [] then wordsOf rest [] else word.reverse :: wordsOf rest [])
    else wordsOf rest (c :: word)

/-- The value of a hexadecimal digit. -/
def hexValue (c : Char) : Option Nat :=
  let n := c.toNat
  if 48 ≤ n ∧ n ≤ 57 then some (n - 48)
  else if 65 ≤ n ∧ n ≤ 70 then some (n - 55)
  else if 97 ≤ n ∧ n ≤ 102 then some (n - 87)
  else none

/-- An unknown or floating level, which a port of the model cannot have (R31). -/
def isXOrZ (c : Char) : Bool := c == 'X' || c == 'x' || c == 'Z' || c == 'z'

/-- Why a word that is no value of a field is refused: a level that is not 0 or 1, or a malformed line (R68). -/
def rejectWord (word : List Char) : Reject := if word.any isXOrZ then .notTwoValued else .malformedLine

/-- A `0` or a `1` (R71). -/
def readBit (word : List Char) : Except Reject Bool :=
  match word with
  | ['0'] => .ok false
  | ['1'] => .ok true
  | _ => .error (rejectWord word)

/-- Two hexadecimal digits as one channel (R71). -/
def readByte (high low : Char) : Option Byte :=
  match hexValue high, hexValue low with
  | some h, some l => some (BitVec.ofNat 8 (16 * h + l))
  | _, _ => none

/-- `<RRGGBB>`: R, G and B as two digits each (R71). -/
def readPixel (word : List Char) : Except Reject Pixel :=
  match word with
  | [r1, r0, g1, g0, b1, b0] =>
    match readByte r1 r0, readByte g1 g0, readByte b1 b0 with
    | some r, some g, some b => .ok ⟨r, g, b⟩
    | _, _, _ => .error (rejectWord word)
  | _ => .error (rejectWord word)

/-- The marks `[S] [E]` at the end of a line, in this order (R71). -/
def readMarks (p : Pixel) (words : List (List Char)) : Except Reject InBeat :=
  match words with
  | [] => .ok ⟨false, false, p.r, p.g, p.b⟩
  | [['S']] => .ok ⟨true, false, p.r, p.g, p.b⟩
  | [['E']] => .ok ⟨false, true, p.r, p.g, p.b⟩
  | [['S'], ['E']] => .ok ⟨true, true, p.r, p.g, p.b⟩
  | _ => .error .malformedLine

/-- `<RRGGBB> [S] [E]`, as SEND and HOLD have it (R72). -/
def readBeat (words : List (List Char)) : Except Reject InBeat :=
  match words with
  | [] => .error .malformedLine
  | first :: rest =>
    match readPixel first with
    | .ok p => readMarks p rest
    | .error e => .error e

/-- `[<RRGGBB>] [S] [E]`, as a cycle line has it: without `RRGGBB` the channels are 0 (R71). -/
def readOptionalBeat (words : List (List Char)) : Except Reject InBeat :=
  match readMarks ⟨0, 0, 0⟩ words with
  | .ok beat => .ok beat
  | .error _ => readBeat words

/-- A decimal number, most significant digit first. -/
def readDecimal (digits : List Char) : Option Nat :=
  match digits with
  | [] => none
  | _ => digits.foldl (fun acc c => acc.bind fun n => if c.isDigit then some (10 * n + (c.toNat - 48)) else none) (some 0)

/-- The repetition `xN` at the end of a pseudo-instruction, split from the words before it (R72). -/
def splitCopies (words : List (List Char)) : List (List Char) × Nat :=
  match words.getLast? with
  | some ('x' :: digits) =>
    match readDecimal digits with
    | some n => (words.dropLast, n)
    | none => (words, 1)
  | _ => (words, 1)

/-- A pseudo-instruction from its words (R72). -/
def readPseudo (words : List (List Char)) : Except Reject StimLine :=
  match words with
  | [] => .error .malformedLine
  | name :: rest =>
    if name = "RESET".toList ∧ rest = [] then .ok .reset
    else if name = "IDLE".toList ∧ rest = [] then .ok .idle
    else if name = "BLOCK".toList ∧ rest = [] then .ok .block
    else if name = "SEND".toList then (readBeat rest).map .send
    else if name = "HOLD".toList then (readBeat rest).map .hold
    else .error .malformedLine

/-- One line of text: a cycle line (R71) or a pseudo-instruction with its repetition (R72). -/
def readLine (text : List Char) : Except Reject StimEntry :=
  match wordsOf text [] with
  | ['C'] :: rst :: inValid :: outReady :: rest =>
    match readBit rst, readBit inValid, readBit outReady, readOptionalBeat rest with
    | .ok rst, .ok inValid, .ok outReady, .ok beat => .ok ⟨.cycle rst inValid outReady beat, 1⟩
    | .error e, _, _, _ => .error e
    | _, .error e, _, _ => .error e
    | _, _, .error e, _ => .error e
    | _, _, _, .error e => .error e
  | words =>
    let (body, copies) := splitCopies words
    (readPseudo body).map fun line => ⟨line, copies⟩

/-- A program, line by line, as the cycles it drives: the first line that is refused refuses it (R71, R72). -/
def readProgram : List (List Char) → Except Reject (List CycleInputs)
  | [] => .ok []
  | text :: rest =>
    match readLine text, readProgram rest with
    | .ok e, .ok cycles => .ok (e.cycles ++ cycles)
    | .error r, _ => .error r
    | _, .error r => .error r

/-- The state whose coming cycles are driven by a program's (R71; notes/assumptions/3.md). -/
def State.withProgram (s : State) (cycles : List CycleInputs) : State := { s with stimulus := cycles }

/-! ### The writer -/

/-- The hexadecimal digit of a value below 16. -/
def hexDigit (n : Nat) : Char := if n < 10 then Char.ofNat (48 + n) else Char.ofNat (55 + n)

/-- A channel as two hexadecimal digits. -/
def writeByte (v : Byte) : List Char := [hexDigit (v.toNat / 16), hexDigit (v.toNat % 16)]

/-- A bit as `0` or `1`. -/
def writeBit (b : Bool) : Char := if b then '1' else '0'

/-- The text `[ S][ E]` of a beat's marks (R71). -/
def writeMarks (sof eol : Bool) : List Char := (if sof then [' ', 'S'] else []) ++ (if eol then [' ', 'E'] else [])

/-- The text ` RRGGBB[ S][ E]` of a beat. -/
def writeBeat (beat : InBeat) : List Char :=
  ' ' :: (writeByte beat.r ++ writeByte beat.g ++ writeByte beat.b ++ writeMarks beat.sof beat.eol)

/-- The text `C <rst> <in_valid> <out_ready>` that a cycle line begins with (R71). -/
def writeCycleBits (rst inValid outReady : Bool) : List Char :=
  ['C', ' ', writeBit rst, ' ', writeBit inValid, ' ', writeBit outReady]

/-- The text ` xN` of a repetition, with `N` in decimal digits (R72). -/
def writeCopies (n : Nat) : List Char := ' ' :: 'x' :: Nat.toDigits 10 n

/-- A line as text (R71, R72). -/
def StimLine.write : StimLine → List Char
  | .cycle rst inValid outReady beat => writeCycleBits rst inValid outReady ++ writeBeat beat
  | .reset => "RESET".toList
  | .idle => "IDLE".toList
  | .send beat => "SEND".toList ++ writeBeat beat
  | .hold beat => "HOLD".toList ++ writeBeat beat
  | .block => "BLOCK".toList

end Sys2Proof.Machine
end

