-- ==== Sys2Proof/Machine/Stream.lean ====
section
/-! DEFINITION. The stream view of the block: the transaction-level model of R130, the reading of a state as one of its
states, and the move that a cycle is. -/

namespace Sys2Proof.Machine

/-- The transaction-level model (R130): a queue of capacity `depth`, with the two lists of R120. Cycle timing is free,
so it holds no clock (notes/assumptions/19.md). -/
structure Tlm where
  depth : Nat
  tiePolicy : TiePolicy
  queue : List OutWord
  accepted : List InBeat
  delivered : List OutWord
deriving DecidableEq, Repr

/-- What happens in one step of the transaction-level model: a reset, or a delivery, an acceptance, both or neither
(R130). -/
structure TlmMove where
  reset : Bool
  deliver : Bool
  offer : Option InBeat
deriving DecidableEq, Repr

/-- Delivering the head of the queue; there is none to deliver from an empty queue (R130). -/
def Tlm.deliverHead (m : Tlm) : Option Tlm :=
  match m.queue with
  | [] => none
  | head :: rest => some { m with queue := rest, delivered := m.delivered ++ [head] }

/-- Accepting a beat by appending its image to the queue, when the queue has room (R130). -/
def Tlm.acceptBeat (m : Tlm) (beat : InBeat) : Option Tlm :=
  if m.queue.length < m.depth then
    some { m with queue := m.queue ++ [beatImage m.tiePolicy beat], accepted := m.accepted ++ [beat] }
  else none

/-- One step: a reset empties the queue and restarts the lists; otherwise the head may be delivered and then a beat
appended (R130, R162). No answer where the move is not possible. -/
def Tlm.step (m : Tlm) (move : TlmMove) : Option Tlm :=
  if move.reset then some { m with queue := [], accepted := [], delivered := [] }
  else
    let m := if move.deliver then m.deliverHead else some m
    match m, move.offer with
    | none, _ => none
    | some m, none => some m
    | some m, some beat => m.acceptBeat beat

/-- A cycle-level state read as a transaction-level one: the register is a queue of capacity 1 (R7, R130). -/
def State.asTlm (s : State) : Tlm where
  depth := Config.depth
  tiePolicy := s.tiePolicy
  queue := if s.ov then [s.outData] else []
  accepted := s.accepted
  delivered := s.delivered

/-- The move that the current cycle is, read off the ports (R13, R100). -/
def State.tlmMove (s : State) : TlmMove where
  reset := s.inputs.rst
  deliver := s.outFire
  offer := if s.inFire then some s.offeredBeat else none

end Sys2Proof.Machine
end

