-- ==== Sys2Proof/Safety.lean ====
section
/-! DEFINITION. What counts as a safe state and a safe run of the block, in the terms the statements use. -/

namespace Sys2Proof.Machine

/-- The beat the block has accepted and not yet delivered, where there is one (R24). -/
def State.held (s : State) : List OutWord := if s.ov then [s.outData] else []

/-- The stream contract (R120, R121): what was delivered, followed by what is held, is the image of what was accepted,
beat for beat and in order. -/
def State.Inv (s : State) : Prop := s.delivered ++ s.held = s.accepted.map (beatImage s.tiePolicy)

/-- The states of the runs from reset (R164), for every tie policy the block may be built with (R87), for every value the
data fields may have after a reset edge (R26, R27, R34), whatever program is loaded and whatever the environment then
drives. -/
inductive Reachable : State → Prop where
  | start (p : TiePolicy) (oy : Byte) (osof oeol : Bool) (cycles : List CycleInputs) :
      Reachable { State.reset with tiePolicy := p, oy := oy, osof := osof, oeol := oeol, stimulus := cycles }
  | step (s t : State) : Reachable s → Machine.step s = .next t → Reachable t

/-- Two states that a host cannot tell apart: the data fields of an empty register carry no meaning (R26, R27, R33). -/
def State.SameToHost (s t : State) : Prop :=
  s.ov = t.ov ∧ (s.ov = true → s.outData = t.outData) ∧ s.tiePolicy = t.tiePolicy ∧
    s.stimulus = t.stimulus ∧ s.draws = t.draws ∧ s.accepted = t.accepted ∧ s.delivered = t.delivered

end Sys2Proof.Machine
end

