-- ==== Sys2Proof/Certificates/Slice0/Obligations.lean ====
section
/-! DEFINITION. The statements for the provers, each a `def Obligations.<Name> : Prop`. They speak of every state, also of
states that no run reaches, unless the invariant `State.Inv` is a premise. -/

open Sys2Proof Sys2Proof.Machine

/-! ### LUMA (`40_luma_function.md`) -/

/-- R83: LUMA under the policy UP, in exact arithmetic, with the example of the rule; ACCEPT and PASS place it in `oy`,
from the operand slices of `in_data`. -/
def Obligations.LumaIsTheRoundedWeightedSum : Prop :=
  (∀ r g b : Byte,
    (weightedSum r g b).toNat = 299 * r.toNat + 587 * g.toNat + 114 * b.toNat ∧
    (roundedSum .up r g b).toNat = (299 * r.toNat + 587 * g.toNat + 114 * b.toNat + 500) / 1000 ∧
    (luma .up r g b).toNat = clamp ((299 * r.toNat + 587 * g.toNat + 114 * b.toNat + 500) / 1000) 0 255) ∧
  (weightedSum 100 150 200 = 140750 ∧ luma .up 100 150 200 = 141) ∧
  (∀ (s : State) (w : InWord), s.tiePolicy = .up →
    (∃ t, exec (.accept (InBeat.ofWord w)) s = .next t ∧
      t.oy = luma .up (w.extractLsb' 16 8) (w.extractLsb' 8 8) (w.extractLsb' 0 8)) ∧
    (∃ t, exec (.pass (InBeat.ofWord w)) s = .next t ∧
      t.oy = luma .up (w.extractLsb' 16 8) (w.extractLsb' 8 8) (w.extractLsb' 0 8)))

/-- R84: each product, the sum and the sum with the rounding offset fit their widths, so nothing wraps. -/
def Obligations.WeightedSumNeverWraps : Prop :=
  (∀ r g b : Byte,
    (BitVec.ofNat 18 Config.wR * zext18 r).toNat = 299 * r.toNat ∧ 299 * r.toNat ≤ 76245 ∧
    (BitVec.ofNat 18 Config.wG * zext18 g).toNat = 587 * g.toNat ∧ 587 * g.toNat ≤ 149685 ∧
    (BitVec.ofNat 18 Config.wB * zext18 b).toNat = 114 * b.toNat ∧ 114 * b.toNat ≤ 29070 ∧
    (weightedSum r g b).toNat = 299 * r.toNat + 587 * g.toNat + 114 * b.toNat ∧
    (weightedSum r g b).toNat ≤ 255000 ∧
    (weightedSum r g b + BitVec.ofNat 18 Config.half).toNat = (weightedSum r g b).toNat + 500 ∧
    (weightedSum r g b).toNat + 500 ≤ 255500) ∧
  (76245 < 2 ^ 17 ∧ 149685 < 2 ^ 18 ∧ 29070 < 2 ^ 15 ∧ 255500 < 2 ^ 18) ∧
  weightedSum 255 255 255 = 255000 ∧ Config.den ≠ 0

/-- R85: the weights sum to the denominator, the rounded value is within 0..255 under every tie policy, and the clamp
changes nothing. -/
def Obligations.ClampNeverActs : Prop :=
  Config.wR + Config.wG + Config.wB = Config.den ∧
  ∀ (p : TiePolicy) (r g b : Byte),
    (weightedSum r g b).toNat ≤ 1000 * 255 ∧
    (roundedSum p r g b).toNat ≤ 255 ∧
    clamp (roundedSum p r g b).toNat 0 255 = (roundedSum p r g b).toNat ∧
    (luma p r g b).toNat = (roundedSum p r g b).toNat

/-- R86 and R87, off the tie set: every tie policy, the binary64 reference among them, gives round to nearest. -/
def Obligations.TiePoliciesAgreeOffTies : Prop :=
  ∀ (p : TiePolicy) (r g b : Byte),
    (299 * r.toNat + 587 * g.toNat + 114 * b.toNat) % 1000 ≠ 500 →
    (luma p r g b).toNat = (299 * r.toNat + 587 * g.toNat + 114 * b.toNat + 500) / 1000

/-- R87 and D9, on the tie set: UP takes the upper neighbour, EVEN the even one, and the two others one of the two; UP and
the binary64 reference differ on `(0, 36, 12)`. -/
def Obligations.TiePoliciesOnTies : Prop :=
  (∀ r g b : Byte, ∀ S, S = 299 * r.toNat + 587 * g.toNat + 114 * b.toNat → S % 1000 = 500 →
    (luma .up r g b).toNat = S / 1000 + 1 ∧
    (luma .even r g b).toNat = (if (S / 1000) % 2 = 0 then S / 1000 else S / 1000 + 1) ∧
    ((luma .float64Ref r g b).toNat = S / 1000 ∨ (luma .float64Ref r g b).toNat = S / 1000 + 1) ∧
    ((luma .draw r g b).toNat = S / 1000 ∨ (luma .draw r g b).toNat = S / 1000 + 1)) ∧
  luma .up 0 36 12 = 23 ∧ luma .float64Ref 0 36 12 = 22

/-- R88: a gray pixel maps to its own value under every tie policy, so every value 0..255 is reached. -/
def Obligations.GrayMapsToItself : Prop :=
  (∀ (p : TiePolicy) (v : Byte), luma p v v v = v) ∧
  ∀ (p : TiePolicy) (y : Byte), ∃ r g b : Byte, luma p r g b = y

/-- R88: exactly seven triples give 0 and exactly seven give 255, under every tie policy. -/
def Obligations.SevenTriplesGiveEachExtreme : Prop :=
  ∀ (p : TiePolicy) (r g b : Byte),
    (luma p r g b = 0 ↔
      (r, g, b) ∈ ([(0, 0, 0), (0, 0, 1), (0, 0, 2), (0, 0, 3), (0, 0, 4), (1, 0, 0), (1, 0, 1)] :
        List (Byte × Byte × Byte))) ∧
    (luma p r g b = 255 ↔
      (r, g, b) ∈ ([(254, 255, 254), (254, 255, 255), (255, 255, 251), (255, 255, 252), (255, 255, 253),
        (255, 255, 254), (255, 255, 255)] : List (Byte × Byte × Byte)))

/-- R88: raising any channel never lowers the luminance, under UP and under EVEN. -/
def Obligations.LumaIsMonotone : Prop :=
  ∀ (p : TiePolicy) (r g b r' g' b' : Byte), p = .up ∨ p = .even →
    r.toNat ≤ r'.toNat → g.toNat ≤ g'.toNat → b.toNat ≤ b'.toNat →
    (luma p r g b).toNat ≤ (luma p r' g' b').toNat

/-! ### Encodings (`30_encoding.md`) -/

/-- R60 and R63: the fields of an input beat are the slices of the rules, every one of the 2^26 values is a beat, the
layout loses nothing, and a channel is zero-extended to the accumulator. -/
def Obligations.InputBeatLayout : Prop :=
  (∀ w : InWord,
    (InBeat.ofWord w).sof = w.getLsbD 25 ∧ (InBeat.ofWord w).eol = w.getLsbD 24 ∧
    (InBeat.ofWord w).r.toNat = w.toNat / 2 ^ 16 % 256 ∧
    (InBeat.ofWord w).g.toNat = w.toNat / 2 ^ 8 % 256 ∧
    (InBeat.ofWord w).b.toNat = w.toNat % 256 ∧
    (InBeat.ofWord w).toWord = w) ∧
  (∀ beat : InBeat, InBeat.ofWord beat.toWord = beat) ∧
  ∀ v : Byte, (zext18 v).toNat = v.toNat

/-- R62 and R65: `out_data` is assembled from the output register, `sof` in bit 9, `eol` in bit 8, `y` in bits 7:0, in every
state; and every one of the 2^10 values can appear: under every tie policy it is the image of some beat, and some run from
reset offers it with `out_valid = 1`. -/
def Obligations.OutputBeatLayout : Prop :=
  (∀ s : State, s.outData.getLsbD 9 = s.osof ∧ s.outData.getLsbD 8 = s.oeol ∧
    s.outData.toNat % 256 = s.oy.toNat) ∧
  ∀ (p : TiePolicy) (w : OutWord), (∃ beat : InBeat, beatImage p beat = w) ∧
    ∃ s : State, Reachable s ∧ s.tiePolicy = p ∧ s.outValid = true ∧ s.outData = w

/-- R66: the control vector's bits, and `in_data` is not among them. -/
def Obligations.ControlVectorLayout : Prop :=
  ∀ s : State, s.ctl.getLsbD 3 = s.inputs.rst ∧ s.ctl.getLsbD 2 = s.ov ∧
    s.ctl.getLsbD 1 = s.inputs.inValid ∧ s.ctl.getLsbD 0 = s.inputs.outReady

/-- R67: each operation is selected by its match and mask, and by nothing else. -/
def Obligations.OperationMapSelects : Prop :=
  ∀ (c : Ctl) (d : InWord),
    (decode c d = .reset ↔ c &&& 0x8#4 = 0x8#4) ∧
    (decode c d = .idle ↔ c &&& 0xE#4 = 0x0#4) ∧
    (decode c d = .accept (InBeat.ofWord d) ↔ c &&& 0xE#4 = 0x2#4) ∧
    (decode c d = .stall ↔ c &&& 0xD#4 = 0x4#4) ∧
    (decode c d = .emit ↔ c &&& 0xF#4 = 0x5#4) ∧
    (decode c d = .pass (InBeat.ofWord d) ↔ c &&& 0xF#4 = 0x7#4)

/-- R69: each of the 16 control vectors is selected by exactly one row of the operation map, the row of the operation
that the decoder gives; the rows cover 8, 2, 2, 2, 1 and 1 values. -/
def Obligations.OperationMapCompleteAndDisjoint : Prop :=
  (∀ (c : Ctl) (d : InWord), opTable.filter (fun row => row.selects c) = [(decode c d).row]) ∧
  (∀ i : Instr, i.row.mnemonic = i.mnemonic ∧ i.row ∈ opTable) ∧
  opTable.map (fun row => ((List.range 16).filter fun n => row.selects (BitVec.ofNat 4 n)).length) = [8, 2, 2, 2, 1, 1]

/-- Decoding an encoded operation gives it back, every operand and every don't-care bit at every value. -/
def Obligations.DecodeOfEncodeIsTheOperation : Prop :=
  ∀ (i : Instr) (dontCare : OpWord), i.wf = true → decodeWord (encode i dontCare) = i

/-- Encoding a decoded word, with its own don't-care bits, gives the word back: no bit of a word is dropped. -/
def Obligations.EncodeOfDecodeIsTheWord : Prop :=
  ∀ w : OpWord, encode (decodeWord w) w = w

/-- The words of R67's pattern column, written out bit by bit, decode to the operations they stand for. -/
def Obligations.TableWordsDecode : Prop :=
  decodeTableWord 8 0b1000 = some .reset ∧
  decodeTableWord 8 0b0001 = some .idle ∧
  decodeTableWord 8 0b0010 = some (.accept ⟨false, false, 0, 0, 0⟩) ∧
  decodeTableWord 8 0b0110 = some .stall ∧
  decodeTableWord 8 0b0101 = some .emit ∧
  decodeTableWord 8 0b0111 = some (.pass ⟨false, false, 0, 0, 0⟩) ∧
  decodeTableWord 30 0b10_01100100_10010110_11001000_0010 = some (.accept ⟨true, false, 0x64, 0x96, 0xC8⟩)

/-- A fetched instruction word is the operation of the very next cycle, and that cycle is a step of it. -/
def Obligations.FetchedWordIsTheNextOperation : Prop :=
  ∀ (s : State) (i : Instr) (dontCare : OpWord), i.wf = true →
    (s.withFetchWord 30 (encode i dontCare).toNat).currentInstr = i ∧
    ∃ t, exec i (s.withFetchWord 30 (encode i dontCare).toNat) = .next t ∧
      step (s.withFetchWord 30 (encode i dontCare).toNat) = .next t.nextCycle ∧
      t.nextCycle.stimulus = s.stimulus

/-- R71, the 29-bit stimulus word: its bits, that it loses nothing, and the rule's example. -/
def Obligations.StimulusWordLayout : Prop :=
  (∀ w : StimWord,
    (CycleInputs.ofStimWord w).rst = w.getLsbD 28 ∧ (CycleInputs.ofStimWord w).inValid = w.getLsbD 27 ∧
    (CycleInputs.ofStimWord w).outReady = w.getLsbD 26 ∧
    (CycleInputs.ofStimWord w).inData.toNat = w.toNat % 2 ^ 26 ∧
    (CycleInputs.ofStimWord w).toStimWord = w) ∧
  (∀ c : CycleInputs, CycleInputs.ofStimWord c.toStimWord = c) ∧
  (readLine "C 0 1 1 808080 S".toList).map (fun e => e.cycles.map CycleInputs.toStimWord) =
    (.ok [0x0E808080#29] : Except Reject (List StimWord))

/-- R72: what each pseudo-instruction drives, as the cycle line it expands to, and the repetition `xN`. -/
def Obligations.PseudoInstructionsExpand : Prop :=
  StimLine.reset.drives = (StimLine.cycle true false false noBeat).drives ∧
  StimLine.idle.drives = (StimLine.cycle false false true noBeat).drives ∧
  StimLine.block.drives = (StimLine.cycle false false false noBeat).drives ∧
  (∀ beat, (StimLine.send beat).drives = (StimLine.cycle false true true beat).drives ∧
    (StimLine.hold beat).drives = (StimLine.cycle false true false beat).drives) ∧
  noBeat = ⟨false, false, 0, 0, 0⟩ ∧
  ∀ (line : StimLine) (n : Nat), (StimEntry.cycles ⟨line, n⟩).length = n ∧
    ∀ c ∈ StimEntry.cycles ⟨line, n⟩, c = line.drives

/-- R71 and R72: the text of every line is read back as that line; the text of a pseudo-instruction followed by ` xN` as
that line with `N` copies; and a cycle line without `RRGGBB` as the beat of zero channels with the marks of the line. -/
def Obligations.WrittenLinesReadBack : Prop :=
  (∀ line : StimLine, readLine line.write = .ok ⟨line, 1⟩) ∧
  (∀ (line : StimLine) (n : Nat), (∀ rst inValid outReady beat, line ≠ .cycle rst inValid outReady beat) →
    readLine (line.write ++ writeCopies n) = .ok ⟨line, n⟩) ∧
  ∀ rst inValid outReady sof eol : Bool,
    readLine (writeCycleBits rst inValid outReady ++ writeMarks sof eol) =
      .ok ⟨.cycle rst inValid outReady ⟨sof, eol, 0, 0, 0⟩, 1⟩

/-- R68: an X or a Z in place of a bit or of a pixel is refused by name. -/
def Obligations.NonBinaryTextIsRefused : Prop :=
  ∀ word : List Char, word.any isXOrZ = true →
    readBit word = .error .notTwoValued ∧ readPixel word = .error .notTwoValued

/-- R73: a SEND line always fires, a HOLD line fires exactly while the register is empty, and with a full register it is
a STALL. -/
def Obligations.SendAlwaysFires : Prop :=
  ∀ (s : State) (beat : InBeat),
    (s.inputs = (StimLine.send beat).drives → s.inFire = true) ∧
    (s.inputs = (StimLine.hold beat).drives → s.ov = false → s.inFire = true) ∧
    (s.inputs = (StimLine.hold beat).drives → s.ov = true → s.inFire = false ∧ s.currentInstr = .stall)

/-! ### The six cycle operations (`41_cycle_operations.md`)

Each statement says when the operation is selected, what the ports show in its cycle, and the whole next state, so that every
field not named is unchanged. The fields `accepted` and `delivered` are the lists `In` and `Out` of R120, which R162 restarts;
that State holds them, and holds the tie policy, is the model's choice (notes/assumptions/9.md and 6.md). -/

/-- R101: RESET. Selected by `rst` alone; no beat fires; `ov` becomes 0, the data fields are not written, the held pixel is
discarded; a second reset changes nothing more. The lists `In` and `Out` restart (R162); nothing else changes. -/
def Obligations.ResetOperation : Prop :=
  ∀ s : State,
    (s.currentInstr = .reset ↔ s.inputs.rst = true) ∧
    (s.inputs.rst = true → s.inReady = false ∧ s.outValid = false ∧ s.inFire = false ∧ s.outFire = false) ∧
    exec .reset s = .next { s with ov := false, accepted := [], delivered := [] } ∧
    ∀ t, exec .reset s = .next t → exec .reset t = .next t

/-- R102: IDLE. Selected when no reset, the register empty and no pixel offered; ready, nothing offered, nothing fires;
nothing is written. -/
def Obligations.IdleOperation : Prop :=
  ∀ s : State,
    (s.currentInstr = .idle ↔ s.inputs.rst = false ∧ s.ov = false ∧ s.inputs.inValid = false) ∧
    (s.currentInstr = .idle → s.inReady = true ∧ s.outValid = false ∧ s.inFire = false ∧ s.outFire = false) ∧
    exec .idle s = .next s

/-- R103: ACCEPT. Selected when no reset, the register empty and a pixel offered, with the beat on `in_data` as operand; the
beat fires and nothing is offered; the register takes LUMA of the beat and its marks. -/
def Obligations.AcceptOperation : Prop :=
  ∀ (s : State) (beat : InBeat),
    (s.currentInstr = .accept beat ↔
      s.inputs.rst = false ∧ s.ov = false ∧ s.inputs.inValid = true ∧ beat = InBeat.ofWord s.inputs.inData) ∧
    (s.currentInstr = .accept beat → s.inReady = true ∧ s.inFire = true ∧ s.outValid = false ∧ s.outFire = false) ∧
    exec (.accept beat) s = .next { s with
      ov := true, oy := luma s.tiePolicy beat.r beat.g beat.b, osof := beat.sof, oeol := beat.eol
      accepted := s.accepted ++ [beat] }

/-- R104: STALL. Selected when no reset, the register full and the consumer not ready; not ready, the held value is offered,
nothing fires; nothing is written, so that the next cycle offers the same value and has lost no pixel. -/
def Obligations.StallOperation : Prop :=
  ∀ s : State,
    (s.currentInstr = .stall ↔ s.inputs.rst = false ∧ s.ov = true ∧ s.inputs.outReady = false) ∧
    (s.currentInstr = .stall → s.inReady = false ∧ s.outValid = true ∧
      s.outData = outWord s.osof s.oeol s.oy ∧ s.inFire = false ∧ s.outFire = false) ∧
    exec .stall s = .next s ∧
    (s.currentInstr = .stall → step s = .next s.nextCycle ∧ s.nextCycle.ov = true ∧ s.nextCycle.outData = s.outData ∧
      s.nextCycle.accepted = s.accepted ∧ s.nextCycle.delivered = s.delivered)

/-- R105: EMIT. Selected when no reset, the register full, no pixel offered and the consumer ready; the held value is
delivered; `ov` becomes 0 and the data fields hold. -/
def Obligations.EmitOperation : Prop :=
  ∀ s : State,
    (s.currentInstr = .emit ↔
      s.inputs.rst = false ∧ s.ov = true ∧ s.inputs.inValid = false ∧ s.inputs.outReady = true) ∧
    (s.currentInstr = .emit → s.inReady = true ∧ s.outValid = true ∧ s.outFire = true ∧ s.inFire = false) ∧
    exec .emit s = .next { s with ov := false, delivered := s.delivered ++ [outWord s.osof s.oeol s.oy] }

/-- R106: PASS. Selected when no reset, the register full, a pixel offered and the consumer ready; both beats fire; the old
value is delivered and the register takes the new beat. -/
def Obligations.PassOperation : Prop :=
  ∀ (s : State) (beat : InBeat),
    (s.currentInstr = .pass beat ↔
      s.inputs.rst = false ∧ s.ov = true ∧ s.inputs.inValid = true ∧ s.inputs.outReady = true ∧
        beat = InBeat.ofWord s.inputs.inData) ∧
    (s.currentInstr = .pass beat → s.inReady = true ∧ s.outValid = true ∧ s.inFire = true ∧ s.outFire = true) ∧
    exec (.pass beat) s = .next { s with
      ov := true, oy := luma s.tiePolicy beat.r beat.g beat.b, osof := beat.sof, oeol := beat.eol
      accepted := s.accepted ++ [beat], delivered := s.delivered ++ [outWord s.osof s.oeol s.oy] }

/-! ### The step -/

/-- A step runs the operation that the control vector decodes to, and then the next cycle begins: the environment's list
moves on by one, or one more cycle is free, and nothing else changes. -/
def Obligations.StepRunsTheDecodedOperation : Prop :=
  (∀ s t : State, exec (decode s.ctl s.inputs.inData) s = .next t → step s = .next t.nextCycle) ∧
  (∀ (s : State) (c : CycleInputs) (rest : List CycleInputs), s.stimulus = c :: rest →
    s.inputs = c ∧ s.nextCycle = { s with stimulus := rest }) ∧
  ∀ s : State, s.stimulus = [] →
    s.inputs = CycleInputs.ofStimWord (Config.freeStimulus s.draws) ∧ s.nextCycle = { s with draws := s.draws + 1 }

/-- R140 and R68: no operation and no input ends a run; and no operation writes the tie policy or the environment's
drives. -/
def Obligations.EveryStepAnswersNext : Prop :=
  (∀ s : State, ∃ t, step s = .next t ∧ t.tiePolicy = s.tiePolicy) ∧
  ∀ (i : Instr) (s : State), ∃ t, exec i s = .next t ∧
    t.tiePolicy = s.tiePolicy ∧ t.stimulus = s.stimulus ∧ t.draws = s.draws

/-- R107: the step of the six meanings is the one next-state function of the rule, and it delivers what that function
delivers. -/
def Obligations.StepIsTheCombinedFunction : Prop :=
  ∀ s : State, ∃ t, step s = .next t ∧
    combinedEdge s.tiePolicy s.inputs s.ov s.oy s.osof s.oeol = ⟨t.ov, t.oy, t.osof, t.oeol, s.takenBeat⟩

/-- R100: the port equations; and `in_ready` depends on `rst`, `ov` and `out_ready` only, `out_valid` on `rst` and `ov`
only. -/
def Obligations.PortEquations : Prop :=
  (∀ s : State,
    s.inReady = (!s.inputs.rst && (!s.ov || s.inputs.outReady)) ∧
    s.outValid = (!s.inputs.rst && s.ov) ∧
    s.outData = outWord s.osof s.oeol s.oy ∧
    s.inFire = (s.inputs.inValid && s.inReady) ∧
    s.outFire = (s.outValid && s.inputs.outReady)) ∧
  ∀ s t : State, s.inputs.rst = t.inputs.rst → s.ov = t.ov →
    s.outValid = t.outValid ∧ (s.inputs.outReady = t.inputs.outReady → s.inReady = t.inReady)

/-- The lists `In` and `Out` of R120 grow by exactly the beats that fire, whichever operation runs, and restart at a reset
edge (R162). -/
def Obligations.TransferListsFollowTheFires : Prop :=
  ∀ s t : State, step s = .next t →
    t.accepted = (if s.inputs.rst then [] else if s.inFire then s.accepted ++ [s.offeredBeat] else s.accepted) ∧
    t.delivered = (if s.inputs.rst then [] else if s.outFire then s.delivered ++ [s.outData] else s.delivered)

/-- R144: with `rst = 1` no beat fires; with `rst = 0` the two fires in one cycle are PASS, which delivers the old value and
holds the new one. -/
def Obligations.ResetTakesPrecedence : Prop :=
  ∀ s : State,
    (s.inputs.rst = true → s.inFire = false ∧ s.outFire = false ∧ s.currentInstr = .reset) ∧
    (s.inFire = true ∧ s.outFire = true ↔ s.currentInstr = .pass s.offeredBeat) ∧
    (s.inFire = true → s.outFire = true → ∀ t, step s = .next t →
      t.delivered = s.delivered ++ [s.outData] ∧ t.ov = true ∧ t.outData = beatImage s.tiePolicy s.offeredBeat)

/-- R111: `in_data` has no effect in a cycle with no input fire, whatever `in_valid` is. -/
def Obligations.InDataIsIgnoredWithoutAFire : Prop :=
  ∀ (s : State) (c : CycleInputs) (rest : List CycleInputs) (w : InWord), s.stimulus = c :: rest →
    (∀ beat, s.currentInstr ≠ .accept beat ∧ s.currentInstr ≠ .pass beat) →
    step { s with stimulus := { c with inData := w } :: rest } = step s

/-! ### Handshakes and progress -/

/-- R53: an offer not taken is offered again in the next cycle, unchanged, unless that cycle is a reset cycle. -/
def Obligations.OfferIsStable : Prop :=
  ∀ s t : State, s.outValid = true → s.inputs.outReady = false → s.inputs.rst = false → step s = .next t →
    t.inputs.rst = false → t.outValid = true ∧ t.outData = s.outData

/-- R172: a pixel accepted at the edge that ends a cycle is on `out_data`, offered, in the next cycle; and the `out_data` of
the cycle that accepts it does not depend on it. -/
def Obligations.AcceptedPixelIsOfferedNextCycle : Prop :=
  (∀ s t : State, s.inFire = true → step s = .next t →
    t.outData = beatImage s.tiePolicy s.offeredBeat ∧ (t.inputs.rst = false → t.outValid = true)) ∧
  ∀ (s : State) (c : CycleInputs) (rest : List CycleInputs) (w : InWord), s.stimulus = c :: rest →
    { s with stimulus := { c with inData := w } :: rest }.outData = s.outData ∧
    { s with stimulus := { c with inData := w } :: rest }.outValid = s.outValid

/-- R122, its two cases of progress, and that without a ready consumer a held value waits. -/
def Obligations.HandshakesMakeProgress : Prop :=
  ∀ s : State, s.inputs.rst = false →
    (s.ov = true → s.inputs.outReady = true → ∃ t, step s = .next t ∧ t.delivered = s.delivered ++ [s.outData]) ∧
    (s.inputs.inValid = true → (s.ov = false ∨ s.inputs.outReady = true) →
      ∃ t, step s = .next t ∧ t.accepted = s.accepted ++ [s.offeredBeat]) ∧
    (s.inputs.outReady = false → ∃ t, step s = .next t ∧ t.delivered = s.delivered)

/-- R104 and R152: while the consumer is not ready the block holds its pixel and takes nothing, for any number of cycles:
the hang is kept, whatever the producer drives. -/
def Obligations.StallLastsWhileTheConsumerWaits : Prop :=
  ∀ (cs rest : List CycleInputs) (s : State), s.ov = true → s.stimulus = cs ++ rest →
    (∀ c ∈ cs, c.rst = false ∧ c.outReady = false) →
    Host.Core.run Sys2Proof.core cs.length s = .next { s with stimulus := rest }

/-- R104 and R150: a pixel offered to a full block and held is taken once, when the consumer becomes ready, and the held
value is delivered once. -/
def Obligations.HeldOfferIsTakenOnce : Prop :=
  ∀ (n : Nat) (w : InWord) (rest : List CycleInputs) (s : State), s.ov = true →
    s.stimulus = List.replicate n ⟨false, true, false, w⟩ ++ ⟨false, true, true, w⟩ :: rest →
    ∃ t, Host.Core.run Sys2Proof.core (n + 1) s = .next t ∧
      t.ov = true ∧ t.outData = beatImage s.tiePolicy (InBeat.ofWord w) ∧
      t.accepted = s.accepted ++ [InBeat.ofWord w] ∧ t.delivered = s.delivered ++ [s.outData] ∧ t.stimulus = rest

/-- R150: under the producer's duty, a pixel once offered is the pixel that is taken at the first input fire, however many
cycles without a fire come before it. -/
def Obligations.HeldOfferIsThePixelTaken : Prop :=
  ∀ (n : Nat) (run : Nat → State),
    (∀ k, k < n → step (run k) = .next (run (k + 1)) ∧ offerHeld (run k) (run (k + 1)) = true ∧
      (run k).inFire = false) →
    (run 0).inputs.inValid = true → (run n).inFire = true →
    ∃ t, step (run n) = .next t ∧
      t.accepted = (run n).accepted ++ [(run 0).offeredBeat] ∧
      t.outData = beatImage (run 0).tiePolicy (run 0).offeredBeat

/-- R162: a reset edge empties the block from any state, the power-up ones among them, and the lists of R120 restart, so
that the stream contract holds from there on whatever came before. -/
def Obligations.ResetEdgeStartsOver : Prop :=
  ∀ s : State, s.inputs.rst = true → ∃ t, step s = .next t ∧
    t.ov = false ∧ t.accepted = [] ∧ t.delivered = [] ∧
    t.oy = s.oy ∧ t.osof = s.osof ∧ t.oeol = s.oeol ∧ t.Inv

/-- R163: any number of consecutive reset cycles leaves the state that one leaves. -/
def Obligations.ManyResetCyclesAreOne : Prop :=
  ∀ (c : CycleInputs) (cs rest : List CycleInputs) (s : State), s.stimulus = c :: cs ++ rest →
    (∀ d ∈ c :: cs, d.rst = true) →
    Host.Core.run Sys2Proof.core (cs.length + 1) s =
      .next { s with ov := false, accepted := [], delivered := [], stimulus := rest }

/-- R49: a cycle with `out_valid = 0` and `rst = 0` shows that the register is empty, and that every accepted pixel has been
delivered; in a cycle with `rst = 0` an empty register shows as exactly that (R131). -/
def Obligations.DrainedMeansAllDelivered : Prop :=
  ∀ s : State,
    (s.seenDrained = true ↔ s.inputs.rst = false ∧ s.outValid = false) ∧
    (s.seenDrained = true → s.ov = false ∧ (s.Inv → s.delivered = s.accepted.map (beatImage s.tiePolicy))) ∧
    (s.inputs.rst = false → s.ov = false → s.seenDrained = true)

/-! ### The stream and the frame (`42_stream_and_frame.md`) -/

/-- The stream contract is kept by every step, from every state that meets it. -/
def Obligations.StepKeepsTheStreamContract : Prop :=
  ∀ s t : State, s.Inv → step s = .next t → t.Inv

/-- The state after reset (R34): empty, with empty lists, so that the stream contract holds; in the first cycle with
`rst = 0` it is ready and offers nothing (R164), whatever program is loaded. The data fields are the model's free
constants (notes/assumptions/4.md), of which nothing is said. -/
def Obligations.ResetStateIsEmptyAndReady : Prop :=
  State.reset.Inv ∧ State.reset.ov = false ∧ State.reset.accepted = [] ∧ State.reset.delivered = [] ∧
  ∀ cycles : List CycleInputs, (State.reset.withProgram cycles).inputs.rst = false →
    (State.reset.withProgram cycles).inReady = true ∧ (State.reset.withProgram cycles).outValid = false

/-- R120 and R121: at every cycle boundary of every run, `Out` is an initial part of `map F In`, the two lengths differ by
`ov`, and a full register holds the image of the last accepted beat, the next element of `Out`. -/
def Obligations.ReachableStatesMeetTheStreamContract : Prop :=
  ∀ s : State, Reachable s →
    s.delivered <+: s.accepted.map (beatImage s.tiePolicy) ∧
    s.accepted.length = s.delivered.length + s.ov.toNat ∧
    (s.ov = true → (s.accepted.getLast?).map (beatImage s.tiePolicy) = some s.outData ∧
      (s.accepted.map (beatImage s.tiePolicy))[s.delivered.length]? = some s.outData)

/-- R36: the contents of an empty register are never seen: two states that differ in them alone show the same handshakes
and deliver the same beats in the cycle, and a step takes them to two such states again. -/
def Obligations.UnknownFieldsAreNeverSeen : Prop :=
  ∀ s t s' t' : State, s.SameToHost t → step s = .next s' → step t = .next t' →
    s.inReady = t.inReady ∧ s.outValid = t.outValid ∧ s.takenBeat = t.takenBeat ∧ s'.SameToHost t'

/-- R122, R175: with the producer and the consumer always ready, any pixels, marked in any way (R126), go through an empty
block at one pixel a cycle, in order, and one cycle more drains it. -/
def Obligations.OnePixelPerCycle : Prop :=
  ∀ (ws : List InWord) (w : InWord) (rest : List CycleInputs) (s : State), s.ov = false →
    s.stimulus = ws.map (fun w => ⟨false, true, true, w⟩) ++ ⟨false, false, true, w⟩ :: rest →
    ∃ t, Host.Core.run Sys2Proof.core (ws.length + 1) s = .next t ∧ t.ov = false ∧
      t.accepted = s.accepted ++ ws.map InBeat.ofWord ∧
      t.delivered = s.delivered ++ ws.map (fun w => beatImage s.tiePolicy (InBeat.ofWord w)) ∧
      t.stimulus = rest

/-- R124: a raster of `W` columns and `H` rows is presented as `W * H` beats in row-major order, the pixel at column `x` of
row `y` at index `y * W + x`, `sof` on index 0 only and `eol` exactly on the last column. -/
def Obligations.RasterIsPresentedRowMajor : Prop :=
  ∀ f : Raster, f.wf = true →
    (rasterBeats f).length = f.width * f.rows.length ∧
    wellFramed f.width f.rows.length (rasterBeats f) = true ∧
    ∀ (x y : Nat) (px : Pixel), pixelAt f x y = some px →
      (rasterBeats f)[y * f.width + x]? =
        some ⟨decide (y * f.width + x = 0), decide (x = f.width - 1), px.r, px.g, px.b⟩

/-- R125: for a frame presented as R124 says, wherever it stands in the stream, with any beats before and after it, the
block delivers the Luminance Plane, which has one cell per pixel: each delivered beat of the frame carries its cell, in the
same order and with the same marks, and once the block is drained after the frame, all `W * H` beats are delivered. -/
def Obligations.FrameDeliversTheLuminancePlane : Prop :=
  ∀ (s : State) (f : Raster) (before after : List InBeat), s.Inv → f.wf = true →
    s.accepted = before ++ rasterBeats f ++ after →
    (luminancePlane s.tiePolicy f).map List.length = List.replicate f.rows.length f.width ∧
    (after = [] → s.ov = false → s.delivered.length = before.length + f.width * f.rows.length) ∧
    ∀ (x y : Nat) (v : Byte), ((luminancePlane s.tiePolicy f)[y]?.bind fun row => row[x]?) = some v →
      before.length + (y * f.width + x) < s.delivered.length →
      s.delivered[before.length + (y * f.width + x)]? =
        some (outWord (decide (y * f.width + x = 0)) (decide (x = f.width - 1)) v)

/-- R175 and R127: a frame of `W * H` pixels, with the producer and the consumer always ready, is complete `W * H + 1`
cycles after its first input fire, that cycle included, and no earlier, whatever beats and frames came before it. -/
def Obligations.FrameTakesOneCycleMoreThanItsPixels : Prop :=
  ∀ (s : State) (f : Raster) (w : InWord) (rest : List CycleInputs), f.wf = true → s.ov = false →
    s.stimulus = (rasterBeats f).map (fun beat => ⟨false, true, true, beat.toWord⟩) ++ ⟨false, false, true, w⟩ :: rest →
    ∃ t, Host.Core.run Sys2Proof.core (f.width * f.rows.length + 1) s = .next t ∧
      t.ov = false ∧ t.accepted = s.accepted ++ rasterBeats f ∧
      t.delivered = s.delivered ++ (rasterBeats f).map (beatImage s.tiePolicy) ∧
      frameComplete f.width f.rows.length (s.delivered.countP startsFrame) t.delivered = true ∧
      ∀ k u, k ≤ f.width * f.rows.length → Host.Core.run Sys2Proof.core k s = .next u →
        frameComplete f.width f.rows.length (s.delivered.countP startsFrame) u.delivered = false

/-- R130: every cycle of the reference design is a step of the transaction-level model. -/
def Obligations.CycleIsATransactionStep : Prop :=
  ∀ s t : State, step s = .next t → s.asTlm.step s.tlmMove = some t.asTlm

/-- R120 at the level of R130, for every capacity: what was delivered, followed by what is queued, is the image of what was
accepted, in order, and the queue is never longer than its capacity. -/
def Obligations.TransactionModelKeepsOrder : Prop :=
  ∀ (m m' : Tlm) (move : TlmMove),
    m.delivered ++ m.queue = m.accepted.map (beatImage m.tiePolicy) → m.queue.length ≤ m.depth →
    m.step move = some m' →
    m'.delivered ++ m'.queue = m'.accepted.map (beatImage m'.tiePolicy) ∧ m'.queue.length ≤ m'.depth ∧
      m'.depth = m.depth ∧ m'.tiePolicy = m.tiePolicy

/-- R170 and R151: an environment that reacts within the cycle is resolved into inputs that agree with the producer and the
consumer at the ports as the block then drives them, and no other inputs agree; it is refused exactly when the `out_ready`
that it answers depends on `in_ready` or on `out_ready` itself, directly or through the producer. -/
def Obligations.ResolvedInputsAgreeWithThePorts : Prop :=
  ∀ (s : State) (rst : Bool) (producer : Producer) (consumer : Consumer) (rest : List CycleInputs),
    (∀ c, resolveCycle s rst producer consumer = .ok c → ∀ d s', s' = { s with stimulus := d :: rest } →
      (d = c ↔
        s'.inputs.rst = rst ∧
        s'.inputs.outReady =
          consumer s'.inReady s'.outValid s'.outData (s'.inputs.inValid, s'.inputs.inData) ∧
        (s'.inputs.inValid, s'.inputs.inData) =
          producer s'.inReady s'.outValid s'.outData s'.inputs.outReady)) ∧
    (resolveCycle s rst producer consumer = .error .combinationalLoop ↔
      ∃ inReady outReady inReady' outReady' : Bool,
        consumer inReady (outValidOf rst s.ov) s.outData
            (producer inReady (outValidOf rst s.ov) s.outData outReady) ≠
          consumer inReady' (outValidOf rst s.ov) s.outData
            (producer inReady' (outValidOf rst s.ov) s.outData outReady'))

/-- R131: a frame presented as R124 says, wherever it stands in the stream, with any beats and frames before and after it, is
complete exactly when the consumer has received the `W * H`-th output beat from its beat with `sof = 1` on; and the block is
drained exactly when `ov = 0` with `rst = 0`, which shows as `out_valid = 0`. -/
def Obligations.FrameIsCompleteAtItsLastBeat : Prop :=
  (∀ (s : State) (f : Raster) (before after : List InBeat), s.Inv → f.wf = true →
    s.accepted = before ++ rasterBeats f ++ after →
    (frameComplete f.width f.rows.length (before.countP InBeat.sof) s.delivered = true ↔
      before.length + f.width * f.rows.length ≤ s.delivered.length)) ∧
  ∀ s : State, s.inputs.rst = false →
    (s.seenDrained = true ↔ s.ov = false) ∧ (s.ov = false ↔ s.outValid = false)
end

