-- ==== Sys2Proof/Laws/Binary64.lean ====
section
/-! SUPPORT. What rounding to binary64 can do: it moves a value by at most one part in 2^53. -/

namespace Sys2Proof.Machine

/-- Rounding moves a value by at most half a unit in the last place. -/
theorem roundBinary64_half_ulp (num den : Nat) (hd : 0 < den) :
    2 * (roundBinary64 num den * den) ≤ 2 * num + den * 2 ^ (Nat.log2 (num / den) + 1 - 53) ∧
    2 * num ≤ 2 * (roundBinary64 num den * den) + den * 2 ^ (Nat.log2 (num / den) + 1 - 53) := by
  unfold roundBinary64
  generalize hu : 2 ^ (Nat.log2 (num / den) + 1 - 53) = ulp
  have hpos : 0 < ulp := by rw [← hu]; exact Nat.two_pow_pos _
  have key : ∀ n : Nat, n * ulp * den = den * ulp * n := by intro n; ring
  have hunit : 0 < den * ulp := Nat.mul_pos hd hpos
  simp only [key]
  generalize den * ulp = unit at *
  have hsplit := Nat.div_add_mod num unit
  have hlt := Nat.mod_lt num hunit
  generalize num / unit = low at *
  generalize num % unit = rest at *
  have next : unit * (low + 1) = unit * low + unit := by ring
  split
  · rename_i h
    simp only [Bool.or_eq_true, decide_eq_true_eq, Bool.and_eq_true, beq_iff_eq] at h
    rw [next]
    omega
  · rename_i h
    simp only [Bool.or_eq_true, decide_eq_true_eq, Bool.and_eq_true, beq_iff_eq, not_or] at h
    omega

/-- The unit in the last place is at most one part in 2^52 of a value of at least 2^52 units. -/
theorem ulp_le (n : Nat) (h : 2 ^ 52 ≤ n) : 2 ^ 52 * 2 ^ (Nat.log2 n + 1 - 53) ≤ n := by
  have h0 : n ≠ 0 := by omega
  have hlog : 52 ≤ Nat.log2 n := (Nat.le_log2 h0).2 h
  have hle : 2 ^ Nat.log2 n ≤ n := (Nat.le_log2 h0).1 (le_refl _)
  rw [← pow_add]
  have : 52 + (Nat.log2 n + 1 - 53) = Nat.log2 n := by omega
  rw [this]; exact hle

/-- Rounding moves a value of at least 2^52 units, or zero, by at most one part in 2^53. -/
theorem roundBinary64_error (num den : Nat) (hd : 0 < den) (h : num = 0 ∨ 2 ^ 52 * den ≤ num) :
    2 ^ 53 * (roundBinary64 num den * den) ≤ 2 ^ 53 * num + num ∧
    2 ^ 53 * num ≤ 2 ^ 53 * (roundBinary64 num den * den) + num := by
  rcases h with rfl | h
  · simp [roundBinary64]
  · have hq : 2 ^ 52 ≤ num / den := (Nat.le_div_iff_mul_le hd).2 h
    have hu := ulp_le _ hq
    have hm : den * (2 ^ 52 * 2 ^ (Nat.log2 (num / den) + 1 - 53)) ≤ num :=
      le_trans (Nat.mul_le_mul_left den hu) (Nat.mul_div_le num den)
    obtain ⟨h1, h2⟩ := roundBinary64_half_ulp num den hd
    generalize 2 ^ (Nat.log2 (num / den) + 1 - 53) = ulp at *
    have hm' : 2 ^ 52 * (den * ulp) ≤ num := by calc
      2 ^ 52 * (den * ulp) = den * (2 ^ 52 * ulp) := by ring
      _ ≤ num := hm
    generalize den * ulp = unit at *
    generalize roundBinary64 num den * den = rounded at *
    constructor <;> omega

/-- The three literals of R87 in units of 2^-56. -/
theorem literals64 : literal64 Config.wR = 21545220617340452 ∧ literal64 Config.wG = 42297807700263696 ∧
    literal64 Config.wB = 8214565720323785 := by decide

/-- What the binary64 expression of R87 can be: within one eighth of a thousandth of the exact weighted sum. -/
theorem luma64_close (r g b : Nat) (hr : r ≤ 255) (hg : g ≤ 255) (hb : b ≤ 255) :
    1000 * luma64 r g b ≤ 2 ^ 56 * (299 * r + 587 * g + 114 * b) + 2 ^ 53 ∧
    2 ^ 56 * (299 * r + 587 * g + 114 * b) ≤ 1000 * luma64 r g b + 2 ^ 53 := by
  obtain ⟨lr, lg, lb⟩ := literals64
  unfold luma64
  rw [lr, lg, lb]
  dsimp only
  have er := roundBinary64_error (21545220617340452 * r) 1 (by omega) (by omega)
  have eg := roundBinary64_error (42297807700263696 * g) 1 (by omega) (by omega)
  have eb := roundBinary64_error (8214565720323785 * b) 1 (by omega) (by omega)
  generalize roundBinary64 (21545220617340452 * r) 1 = pr at *
  generalize roundBinary64 (42297807700263696 * g) 1 = pg at *
  generalize roundBinary64 (8214565720323785 * b) 1 = pb at *
  have zr : (r = 0 ∧ pr = 0) ∨ 2 ^ 52 ≤ pr := by rcases Nat.eq_zero_or_pos r with h | h <;> omega
  have zg : (g = 0 ∧ pg = 0) ∨ 2 ^ 52 ≤ pg := by rcases Nat.eq_zero_or_pos g with h | h <;> omega
  have zb : (b = 0 ∧ pb = 0) ∨ 2 ^ 52 ≤ pb := by rcases Nat.eq_zero_or_pos b with h | h <;> omega
  have e1 := roundBinary64_error (pr + pg) 1 (by omega) (by clear er eg eb; omega)
  generalize roundBinary64 (pr + pg) 1 = x1 at *
  have z1 : x1 = 0 ∨ 2 ^ 52 ≤ x1 := by clear er eg eb; omega
  have e2 := roundBinary64_error (x1 + pb) 1 (by omega) (by clear er eg eb e1; omega)
  generalize roundBinary64 (x1 + pb) 1 = x2 at *
  constructor <;> omega

@[simp] theorem roundBinary64_zero (den : Nat) : roundBinary64 0 den = 0 := by simp [roundBinary64]

end Sys2Proof.Machine
end

