-- ==== Sys2Proof/Laws/Decode.lean ====
section
/-! SUPPORT. The bits of the assembled words, and the decoder on the four signals of a control vector. -/

namespace Sys2Proof

@[simp] theorem ctlWord_rst (rst ov inValid outReady : Bool) : (ctlWord rst ov inValid outReady)[3] = rst := by
  revert rst ov inValid outReady; decide
@[simp] theorem ctlWord_ov (rst ov inValid outReady : Bool) : (ctlWord rst ov inValid outReady)[2] = ov := by
  revert rst ov inValid outReady; decide
@[simp] theorem ctlWord_inValid (rst ov inValid outReady : Bool) : (ctlWord rst ov inValid outReady)[1] = inValid := by
  revert rst ov inValid outReady; decide
@[simp] theorem ctlWord_outReady (rst ov inValid outReady : Bool) : (ctlWord rst ov inValid outReady)[0] = outReady := by
  revert rst ov inValid outReady; decide

/-- The decoder by its six cases over the signals: the pattern column of R67. -/
theorem decode_ctlWord (rst ov inValid outReady : Bool) (d : InWord) :
    decode (ctlWord rst ov inValid outReady) d =
      if rst then .reset
      else if ov then (if outReady then (if inValid then .pass (InBeat.ofWord d) else .emit) else .stall)
      else (if inValid then .accept (InBeat.ofWord d) else .idle) := by
  cases rst <;> cases ov <;> cases inValid <;> cases outReady <;> rfl

/-- A control vector is the word of its four bits. -/
theorem ctlWord_of_bits (c : Ctl) :
    ctlWord (c.getLsbD 3) (c.getLsbD 2) (c.getLsbD 1) (c.getLsbD 0) = c := by
  revert c; decide

/-! ### The bits of the assembled words -/

theorem OpWord.make_bit (d : InWord) (c : Ctl) (i : Nat) :
    (OpWord.make d c).getLsbD i = if i < 4 then c.getLsbD i else d.getLsbD (i - 4) := by
  refine Eq.trans (BitVec.getLsbD_append (x := d) (y := c)) ?_
  by_cases h : i < 4 <;> simp [h]

theorem outWord_bit (sof eol : Bool) (y : Byte) (i : Nat) :
    (outWord sof eol y).getLsbD i =
      if i < 8 then y.getLsbD i else if i = 8 then eol else if i = 9 then sof else false := by
  refine Eq.trans (BitVec.getLsbD_append (x := BitVec.ofBool sof) (y := BitVec.ofBool eol ++ y)) ?_
  rw [BitVec.getLsbD_append]
  by_cases h8 : i < 8
  · have h9 : i < 1 + 8 := by omega
    simp [h8, h9]
  · by_cases e8 : i = 8
    · subst e8; simp
    · have h9 : ¬ i < 1 + 8 := by omega
      by_cases e9 : i = 9
      · subst e9; simp
      · have : i - (1 + 8) ≠ 0 := by omega
        simp [h8, h9, e8, e9]
        omega

@[simp] theorem outWord_sof (sof eol : Bool) (y : Byte) : (outWord sof eol y)[9] = sof := by
  rw [← BitVec.getLsbD_eq_getElem, outWord_bit]; rfl
@[simp] theorem outWord_eol (sof eol : Bool) (y : Byte) : (outWord sof eol y)[8] = eol := by
  rw [← BitVec.getLsbD_eq_getElem, outWord_bit]; rfl
@[simp] theorem outWord_y (sof eol : Bool) (y : Byte) : (outWord sof eol y).extractLsb' 0 8 = y := by
  apply BitVec.eq_of_getLsbD_eq
  intro i hi
  simp [outWord_bit, hi]

theorem InBeat.toWord_bit (beat : InBeat) (i : Nat) :
    beat.toWord.getLsbD i =
      if i < 8 then beat.b.getLsbD i else if i < 16 then beat.g.getLsbD (i - 8)
      else if i < 24 then beat.r.getLsbD (i - 16) else if i = 24 then beat.eol else if i = 25 then beat.sof
      else false := by
  refine Eq.trans (BitVec.getLsbD_append (x := BitVec.ofBool beat.sof)
    (y := BitVec.ofBool beat.eol ++ (beat.r ++ (beat.g ++ beat.b)))) ?_
  rw [BitVec.getLsbD_append, BitVec.getLsbD_append, BitVec.getLsbD_append]
  by_cases h8 : i < 8
  · simp [h8, show i < 16 by omega, show i < 24 by omega, show i < 25 by omega]
  · by_cases h16 : i < 16
    · simp [h8, h16, show i < 24 by omega, show i < 25 by omega]
    · by_cases h24 : i < 24
      · simp [h8, h16, h24, show i < 25 by omega]
      · by_cases e24 : i = 24
        · subst e24; simp
        · by_cases e25 : i = 25
          · subst e25; simp
          · simp [h8, h16, h24, show ¬ i < 25 by omega, e24, e25]
            omega

theorem CycleInputs.toStimWord_bit (c : CycleInputs) (i : Nat) :
    c.toStimWord.getLsbD i =
      if i < 26 then c.inData.getLsbD i else if i = 26 then c.outReady else if i = 27 then c.inValid
      else if i = 28 then c.rst else false := by
  refine Eq.trans (BitVec.getLsbD_append (x := BitVec.ofBool c.rst)
    (y := BitVec.ofBool c.inValid ++ (BitVec.ofBool c.outReady ++ c.inData))) ?_
  rw [BitVec.getLsbD_append, BitVec.getLsbD_append]
  by_cases h26 : i < 26
  · simp [h26, show i < 27 by omega, show i < 28 by omega]
  · by_cases e26 : i = 26
    · subst e26; simp
    · by_cases e27 : i = 27
      · subst e27; simp
      · by_cases e28 : i = 28
        · subst e28; simp
        · simp [h26, show ¬ i < 28 by omega, e26, e27, e28]
          omega

@[simp] theorem OpWord.make_ctl (d : InWord) (c : Ctl) : OpWord.ctl (OpWord.make d c) = c := by
  apply BitVec.eq_of_getLsbD_eq
  intro i hi
  simp [OpWord.ctl, OpWord.make_bit, hi]

@[simp] theorem OpWord.make_inData (d : InWord) (c : Ctl) : OpWord.inData (OpWord.make d c) = d := by
  apply BitVec.eq_of_getLsbD_eq
  intro i hi
  simp [OpWord.inData, OpWord.make_bit, hi]

/-- An output beat is determined by its three fields. -/
theorem outWord_inj (s e s' e' : Bool) (y y' : Byte) : outWord s e y = outWord s' e' y' ↔ s = s' ∧ e = e' ∧ y = y' := by
  constructor
  · intro h
    have h9 := congrArg (fun w : OutWord => w[9]) h
    have h8 := congrArg (fun w : OutWord => w[8]) h
    have hy := congrArg (fun w : OutWord => w.extractLsb' 0 8) h
    simpa using And.intro h9 (And.intro h8 hy)
  · rintro ⟨rfl, rfl, rfl⟩; rfl

end Sys2Proof
end

