-- ==== Sys2Proof/Laws/Frame.lean ====
section
/-! SUPPORT. What `frameOf` finds, and the `sof` of a beat's image. -/

namespace Sys2Proof.Machine

/-- The image of a beat starts a frame exactly when the beat does (R120). -/
@[simp] theorem startsFrame_beatImage (p : TiePolicy) (beat : InBeat) : startsFrame (beatImage p beat) = beat.sof := by
  simp [startsFrame, beatImage]

/-- No frame `n` where at most `n` beats start one. -/
theorem frameOf_eq_nil (n : Nat) (xs : List OutWord) (h : xs.countP startsFrame ≤ n) : frameOf n xs = [] := by
  induction xs generalizing n with
  | nil => cases n <;> rfl
  | cons x xs ih =>
    cases hx : startsFrame x
    · cases n <;> simp_all [frameOf]
    · cases n with
      | zero => simp [hx] at h
      | succ n => simp_all [frameOf]

/-- The frame that a beat starts, after beats among which as many start one as its number says. -/
theorem frameOf_append_cons (xs : List OutWord) (y : OutWord) (ys : List OutWord) (hy : startsFrame y = true) :
    frameOf (xs.countP startsFrame) (xs ++ y :: ys) = y :: ys.takeWhile (fun v => !startsFrame v) := by
  induction xs with
  | nil => simp [frameOf, hy]
  | cons x xs ih =>
    cases hx : startsFrame x
    · rw [List.countP_cons_of_neg (by simp [hx]), ← ih]
      cases xs.countP startsFrame <;> simp [frameOf, hx]
    · simp_all [frameOf]

end Sys2Proof.Machine
end

