-- ==== Sys2Proof/Laws/Luma.lean ====
section
/-! SUPPORT. LUMA's operators pushed down to arithmetic on natural numbers. -/

namespace Sys2Proof.Machine

@[simp] theorem zext18_toNat (v : Byte) : (zext18 v).toNat = v.toNat := by
  have := v.isLt
  simp only [zext18, BitVec.toNat_setWidth]
  omega

/-- The 18-bit sum is the exact sum: nothing wraps (R84). -/
theorem weightedSum_toNat (r g b : Byte) :
    (weightedSum r g b).toNat = 299 * r.toNat + 587 * g.toNat + 114 * b.toNat := by
  have := r.isLt; have := g.isLt; have := b.isLt
  simp only [weightedSum, BitVec.toNat_add, BitVec.toNat_mul, BitVec.toNat_ofNat, zext18_toNat,
    Config.wR, Config.wG, Config.wB]
  omega

/-- The exact sum is at most 255000 (R84). -/
theorem weightedSum_le (r g b : Byte) : (weightedSum r g b).toNat ≤ 255000 := by
  have := r.isLt; have := g.isLt; have := b.isLt
  rw [weightedSum_toNat]; omega

theorem lowerNeighbour_toNat (S : Acc) : (lowerNeighbour S).toNat = S.toNat / 1000 := by
  simp [lowerNeighbour, Config.den]

theorem roundHalfUp_toNat (S : Acc) (h : S.toNat ≤ 255000) : (roundHalfUp S).toNat = (S.toNat + 500) / 1000 := by
  simp only [roundHalfUp, Config.den, Config.half, BitVec.toNat_udiv, BitVec.toNat_add, BitVec.toNat_ofNat]
  norm_num
  rw [Nat.mod_eq_of_lt (by omega)]

theorem isTie_iff (S : Acc) : isTie S = true ↔ S.toNat % 1000 = 500 := by
  simp [isTie, Config.den, Config.half, ← BitVec.toNat_inj, BitVec.toNat_umod]

/-- The clamp changes nothing within its bounds. -/
theorem clamp_of_le (v hi : Nat) (h : v ≤ hi) : clamp v 0 hi = v := by
  unfold clamp; split
  · omega
  · split <;> omega

/-- LUMA is the rounded value wherever that is within 0..255. -/
theorem luma_toNat (p : TiePolicy) (r g b : Byte) (h : (roundedSum p r g b).toNat ≤ 255) :
    (luma p r g b).toNat = (roundedSum p r g b).toNat := by
  simp only [luma, clamp_of_le _ _ h, BitVec.toNat_ofNat]
  omega

end Sys2Proof.Machine
end

