-- ==== Sys2Proof/Laws/PerInstr.lean ====
section
/-! SUPPORT. The family `EncodesItsRow`: whatever its don't-care bits, an operation's word carries the pattern of its own
row of the operation map (R67). -/

namespace Sys2Proof.Laws.EncodesItsRow

/-- The control vector of every word of the operation is selected by the operation's row. -/
def Statement (i : Instr) : Prop := ∀ dontCare : OpWord, i.row.selects (OpWord.ctl (encode i dontCare)) = true

/-- A row selects its own pattern, completed by any don't-care bits. -/
theorem row_selects_pattern : ∀ c : Ctl, ∀ row ∈ opTable, row.selects (row.pattern ||| (c &&& ~~~row.mask)) = true := by
  decide

theorem reset : Statement .reset := fun w => by
  simpa [encode, Instr.operand] using row_selects_pattern (OpWord.ctl w) Instr.reset.row (by decide)

theorem idle : Statement .idle := fun w => by
  simpa [encode, Instr.operand] using row_selects_pattern (OpWord.ctl w) Instr.idle.row (by decide)

theorem accept (beat : InBeat) : Statement (.accept beat) := fun w => by
  simpa [encode, Instr.operand] using row_selects_pattern (OpWord.ctl w) (Instr.accept beat).row (by simp [opTable, Instr.row])

theorem stall : Statement .stall := fun w => by
  simpa [encode, Instr.operand] using row_selects_pattern (OpWord.ctl w) Instr.stall.row (by decide)

theorem emit : Statement .emit := fun w => by
  simpa [encode, Instr.operand] using row_selects_pattern (OpWord.ctl w) Instr.emit.row (by decide)

theorem pass (beat : InBeat) : Statement (.pass beat) := fun w => by
  simpa [encode, Instr.operand] using row_selects_pattern (OpWord.ctl w) (Instr.pass beat).row (by simp [opTable, Instr.row])

end Sys2Proof.Laws.EncodesItsRow
end

