-- ==== Sys2Proof/Laws/State.lean ====
section
/-! SUPPORT. One lemma per field of State per shared update, so that no later proof unfolds an update. -/

namespace Sys2Proof.Machine

/-! ### `State.load` -/

@[simp] theorem State.load_ov (beat : InBeat) (s : State) : (s.load beat).ov = true := rfl
@[simp] theorem State.load_oy (beat : InBeat) (s : State) : (s.load beat).oy = luma s.tiePolicy beat.r beat.g beat.b := rfl
@[simp] theorem State.load_osof (beat : InBeat) (s : State) : (s.load beat).osof = beat.sof := rfl
@[simp] theorem State.load_oeol (beat : InBeat) (s : State) : (s.load beat).oeol = beat.eol := rfl
@[simp] theorem State.load_tiePolicy (beat : InBeat) (s : State) : (s.load beat).tiePolicy = s.tiePolicy := rfl
@[simp] theorem State.load_stimulus (beat : InBeat) (s : State) : (s.load beat).stimulus = s.stimulus := rfl
@[simp] theorem State.load_draws (beat : InBeat) (s : State) : (s.load beat).draws = s.draws := rfl
@[simp] theorem State.load_accepted (beat : InBeat) (s : State) : (s.load beat).accepted = s.accepted ++ [beat] := rfl
@[simp] theorem State.load_delivered (beat : InBeat) (s : State) : (s.load beat).delivered = s.delivered := rfl

/-! ### `State.deliver` -/

@[simp] theorem State.deliver_ov (s : State) : s.deliver.ov = false := rfl
@[simp] theorem State.deliver_oy (s : State) : s.deliver.oy = s.oy := rfl
@[simp] theorem State.deliver_osof (s : State) : s.deliver.osof = s.osof := rfl
@[simp] theorem State.deliver_oeol (s : State) : s.deliver.oeol = s.oeol := rfl
@[simp] theorem State.deliver_tiePolicy (s : State) : s.deliver.tiePolicy = s.tiePolicy := rfl
@[simp] theorem State.deliver_stimulus (s : State) : s.deliver.stimulus = s.stimulus := rfl
@[simp] theorem State.deliver_draws (s : State) : s.deliver.draws = s.draws := rfl
@[simp] theorem State.deliver_accepted (s : State) : s.deliver.accepted = s.accepted := rfl
@[simp] theorem State.deliver_delivered (s : State) : s.deliver.delivered = s.delivered ++ [s.outData] := rfl

/-! ### `State.discard` -/

@[simp] theorem State.discard_ov (s : State) : s.discard.ov = false := rfl
@[simp] theorem State.discard_oy (s : State) : s.discard.oy = s.oy := rfl
@[simp] theorem State.discard_osof (s : State) : s.discard.osof = s.osof := rfl
@[simp] theorem State.discard_oeol (s : State) : s.discard.oeol = s.oeol := rfl
@[simp] theorem State.discard_tiePolicy (s : State) : s.discard.tiePolicy = s.tiePolicy := rfl
@[simp] theorem State.discard_stimulus (s : State) : s.discard.stimulus = s.stimulus := rfl
@[simp] theorem State.discard_draws (s : State) : s.discard.draws = s.draws := rfl
@[simp] theorem State.discard_accepted (s : State) : s.discard.accepted = [] := rfl
@[simp] theorem State.discard_delivered (s : State) : s.discard.delivered = [] := rfl

/-! ### `State.nextCycle`: only the environment's two fields move -/

@[simp] theorem State.nextCycle_ov (s : State) : s.nextCycle.ov = s.ov := by
  unfold State.nextCycle; split <;> rfl
@[simp] theorem State.nextCycle_oy (s : State) : s.nextCycle.oy = s.oy := by
  unfold State.nextCycle; split <;> rfl
@[simp] theorem State.nextCycle_osof (s : State) : s.nextCycle.osof = s.osof := by
  unfold State.nextCycle; split <;> rfl
@[simp] theorem State.nextCycle_oeol (s : State) : s.nextCycle.oeol = s.oeol := by
  unfold State.nextCycle; split <;> rfl
@[simp] theorem State.nextCycle_tiePolicy (s : State) : s.nextCycle.tiePolicy = s.tiePolicy := by
  unfold State.nextCycle; split <;> rfl
@[simp] theorem State.nextCycle_accepted (s : State) : s.nextCycle.accepted = s.accepted := by
  unfold State.nextCycle; split <;> rfl
@[simp] theorem State.nextCycle_delivered (s : State) : s.nextCycle.delivered = s.delivered := by
  unfold State.nextCycle; split <;> rfl
@[simp] theorem State.nextCycle_stimulus (s : State) : s.nextCycle.stimulus = s.stimulus.tail := by
  unfold State.nextCycle; split <;> simp_all
@[simp] theorem State.nextCycle_draws (s : State) :
    s.nextCycle.draws = s.draws + s.stimulus.isEmpty.toNat := by
  unfold State.nextCycle; split <;> simp_all

/-! ### What is read through the accessors -/

@[simp] theorem State.load_outData (beat : InBeat) (s : State) : (s.load beat).outData = beatImage s.tiePolicy beat := rfl
@[simp] theorem State.deliver_outData (s : State) : s.deliver.outData = s.outData := rfl
@[simp] theorem State.discard_outData (s : State) : s.discard.outData = s.outData := rfl
@[simp] theorem State.nextCycle_outData (s : State) : s.nextCycle.outData = s.outData := by
  simp [State.outData]

/-- The inputs of the current cycle are a function of the environment's two fields alone. -/
theorem State.inputs_congr (s t : State) (hs : s.stimulus = t.stimulus) (hd : s.draws = t.draws) :
    s.inputs = t.inputs := by
  simp [State.inputs, hs, hd]

/-- The inputs of the current cycle, where the environment lists them. -/
theorem State.inputs_of_stimulus (s : State) (c : CycleInputs) (rest : List CycleInputs) (h : s.stimulus = c :: rest) :
    s.inputs = c := by
  simp [State.inputs, h]

end Sys2Proof.Machine
end

