-- ==== Sys2Proof/Laws/Step.lean ====
section
/-! SUPPORT. What a step can do, said once: the operation of a cycle by the four signals, and the six cases of a step. -/

namespace Sys2Proof.Machine

/-- The operation of the current cycle, by its signals (R67). -/
theorem currentInstr_eq (s : State) :
    s.currentInstr =
      if s.inputs.rst then .reset
      else if s.ov then
        (if s.inputs.outReady then (if s.inputs.inValid then .pass s.offeredBeat else .emit) else .stall)
      else (if s.inputs.inValid then .accept s.offeredBeat else .idle) := by
  simp [State.currentInstr, State.ctl, decode_ctlWord, State.offeredBeat]

/-- The state an operation leaves, its one possible outcome. -/
theorem exec_eq (i : Instr) (s : State) :
    exec i s = .next (match i with
      | .reset => s.discard
      | .idle => s
      | .accept beat => s.load beat
      | .stall => s
      | .emit => s.deliver
      | .pass beat => s.deliver.load beat) := by
  cases i <;> rfl

/-- A step whose operation answers a state answers that state in the next cycle. -/
theorem step_of_exec (s t : State) (h : exec s.currentInstr s = .next t) : step s = .next t.nextCycle := by
  simp [step, h]

/-- All that a step can do: one of the six operations, each with the signals that select it, and then the next cycle
(R101 to R106). -/
theorem step_cases (s t : State) (h : step s = .next t) :
    (s.inputs.rst = true ∧ t = s.discard.nextCycle) ∨
    (s.inputs.rst = false ∧ s.ov = false ∧ s.inputs.inValid = false ∧ t = s.nextCycle) ∨
    (s.inputs.rst = false ∧ s.ov = false ∧ s.inputs.inValid = true ∧ t = (s.load s.offeredBeat).nextCycle) ∨
    (s.inputs.rst = false ∧ s.ov = true ∧ s.inputs.outReady = false ∧ t = s.nextCycle) ∨
    (s.inputs.rst = false ∧ s.ov = true ∧ s.inputs.outReady = true ∧ s.inputs.inValid = false ∧
      t = s.deliver.nextCycle) ∨
    (s.inputs.rst = false ∧ s.ov = true ∧ s.inputs.outReady = true ∧ s.inputs.inValid = true ∧
      t = (s.deliver.load s.offeredBeat).nextCycle) := by
  rw [step, currentInstr_eq, exec_eq] at h
  cases hr : s.inputs.rst <;> cases ho : s.ov <;> cases hv : s.inputs.inValid <;> cases hc : s.inputs.outReady <;>
    simp_all

/-- The six cases, as what a step answers. -/
theorem step_eq (s : State) :
    step s = .next (State.nextCycle
      (if s.inputs.rst then s.discard
      else if s.ov then
        (if s.inputs.outReady then (if s.inputs.inValid then s.deliver.load s.offeredBeat else s.deliver) else s)
      else (if s.inputs.inValid then s.load s.offeredBeat else s))) := by
  rw [step, currentInstr_eq, exec_eq]
  cases s.inputs.rst <;> cases s.ov <;> cases s.inputs.inValid <;> cases s.inputs.outReady <;> rfl

end Sys2Proof.Machine
end

