-- ==== Sys2Proof/Laws/Run.lean ====
section
/-! SUPPORT. Runs of several steps, and the induction over the runs from reset, packaged once. -/

namespace Sys2Proof.Machine

/-- No step: the state itself. -/
theorem run_zero (s : State) : Host.Core.run Sys2Proof.core 0 s = .next s := rfl

/-- A run of one more step, when its first step answers a state. -/
theorem run_succ (n : Nat) (s t : State) (h : step s = .next t) :
    Host.Core.run Sys2Proof.core (n + 1) s = Host.Core.run Sys2Proof.core n t := by
  simp only [Host.Core.run]
  rw [show Sys2Proof.core.step s = .next t from h]

/-- A property of the loaded reset states that every step keeps holds of every reachable state. -/
theorem reachable_induction (P : State → Prop) (start : ∀ p oy osof oeol cycles,
      P { State.reset with tiePolicy := p, oy := oy, osof := osof, oeol := oeol, stimulus := cycles })
    (keeps : ∀ s t, P s → step s = .next t → P t) (s : State) (h : Reachable s) : P s := by
  induction h with
  | start p oy osof oeol cycles => exact start p oy osof oeol cycles
  | step s t _ hstep ih => exact keeps s t ih hstep

end Sys2Proof.Machine
end

