-- ==== Sys2Proof/Tests/Slice0.lean ====
section
/-! SUPPORT. The model's own tests: words written out from the spec's encodings, the vectors of `95_test_vectors.md`
(derived by its writer from the rules), ill-formed terms, and a witness for the hypotheses of each statement. -/

namespace Sys2Proof.Tests

open Sys2Proof.Machine

/-! ### Ill-formed terms are refused (R124). No operation is ill-formed (R68), so the check of an operation has none. -/

def gray (v : Byte) : Pixel := ⟨v, v, v⟩

theorem test_wf_refuses_no_columns : (Raster.wf ⟨0, [[]]⟩) = false := by decide
theorem test_wf_refuses_no_rows : (Raster.wf ⟨2, []⟩) = false := by decide
theorem test_wf_refuses_ragged_rows : (Raster.wf ⟨2, [[gray 1, gray 2], [gray 3]]⟩) = false := by decide
theorem test_wf_accepts_raster : (Raster.wf ⟨2, [[gray 1, gray 2], [gray 3, gray 4]]⟩) = true := by decide

/-- The 2 by 2 frame of vector T3 (`95_test_vectors.md` section 4). -/
def frameT3 : List InBeat := [0x20000FA, 0x100240C, 0x0000C04, 0x1123456].map InBeat.ofWord

theorem test_wellFramed_accepts_T3 : wellFramed 2 2 frameT3 = true := by decide
theorem test_wellFramed_refuses_wrong_size : wellFramed 2 1 frameT3 = false := by decide
theorem test_wellFramed_refuses_misplaced_eol : wellFramed 4 1 frameT3 = false := by decide
theorem test_wellFramed_refuses_missing_sof :
    wellFramed 1 1 [⟨false, true, 0, 0, 0⟩] = false := by decide
theorem test_wellFramed_refuses_no_columns : wellFramed 0 1 [] = false := by decide

/-! ### Encodings, bit by bit from the tables of `30_encoding.md` -/

theorem test_decode_reset : decode 0b1111 0 = .reset := by decide
theorem test_decode_idle : decode 0b0001 0 = .idle := by decide
/-- The word of vector V5: `sof = 1, eol = 0, r = 0x64, g = 0x96, b = 0xC8`. -/
theorem test_decode_accept :
    decode 0b0010 0b10_01100100_10010110_11001000 = .accept ⟨true, false, 0x64, 0x96, 0xC8⟩ := by decide
theorem test_decode_stall : decode 0b0110 0 = .stall := by decide
theorem test_decode_emit : decode 0b0101 0 = .emit := by decide
theorem test_decode_pass :
    decode 0b0111 0b01_00010010_00110100_01010110 = .pass ⟨false, true, 0x12, 0x34, 0x56⟩ := by decide
theorem test_decode_rejects_wide_word : decodeNat (2 ^ 30) = .error .wordTooWide := by decide
theorem test_stimulus_rejects_wide_word : stimNat (2 ^ 29) = .error .wordTooWide := by decide
theorem test_outWord_of_V9 : outWord true false 0x8D = 0x28D := by decide

/-- The stimulus words of program P2 (`95_test_vectors.md` section 5), from its lines. -/
theorem test_program_P2_words :
    (readProgram (["RESET", "HOLD 6496C8 S", "HOLD 808080 E x2", "SEND 808080 E", "BLOCK", "IDLE x2"].map
      String.toList)).map (fun cs => cs.map CycleInputs.toStimWord) =
    .ok [0x10000000, 0x0A6496C8, 0x09808080, 0x09808080, 0x0D808080, 0x00000000, 0x04000000, 0x04000000] := by decide
theorem test_line_without_pixel : readLine "C 1 1 1".toList = .ok ⟨.cycle true true true noBeat, 1⟩ := by decide
theorem test_line_with_copies : readLine "IDLE x3".toList = .ok ⟨.idle, 3⟩ := by decide
theorem witness_WrittenLinesReadBack :
    ∀ rst inValid outReady beat, StimLine.block ≠ .cycle rst inValid outReady beat := by intros; simp
theorem test_line_refuses_X_bit : readLine "C 0 X 1".toList = .error .notTwoValued := by decide
theorem test_line_refuses_Z_pixel : readLine "SEND 00ZZ00".toList = .error .notTwoValued := by decide
theorem test_line_refuses_short_pixel : readLine "SEND 0000".toList = .error .malformedLine := by decide

/-! ### LUMA: the vectors of section 2, as `r, g, b, S` and the values under UP, EVEN and FLOAT64_REF -/

/-- One row of the table. -/
structure LumaRow where
  r : Byte
  g : Byte
  b : Byte
  S : Acc
  up : Byte
  even : Byte
  float : Byte

def LumaRow.ok (v : LumaRow) : Bool :=
  weightedSum v.r v.g v.b == v.S && luma .up v.r v.g v.b == v.up && luma .even v.r v.g v.b == v.even &&
    luma .float64Ref v.r v.g v.b == v.float

def lumaCorners : List LumaRow :=
  [⟨0, 0, 0, 0, 0, 0, 0⟩, ⟨255, 255, 255, 255000, 255, 255, 255⟩, ⟨255, 0, 0, 76245, 76, 76, 76⟩,
   ⟨0, 255, 0, 149685, 150, 150, 150⟩, ⟨0, 0, 255, 29070, 29, 29, 29⟩, ⟨255, 255, 0, 225930, 226, 226, 226⟩,
   ⟨0, 255, 255, 178755, 179, 179, 179⟩, ⟨255, 0, 255, 105315, 105, 105, 105⟩]

def lumaSteps : List LumaRow :=
  [⟨1, 0, 0, 299, 0, 0, 0⟩, ⟨2, 0, 0, 598, 1, 1, 1⟩, ⟨0, 1, 0, 587, 1, 1, 1⟩, ⟨0, 0, 4, 456, 0, 0, 0⟩,
   ⟨0, 0, 5, 570, 1, 1, 1⟩, ⟨1, 0, 1, 413, 0, 0, 0⟩, ⟨254, 255, 254, 254587, 255, 255, 255⟩,
   ⟨255, 255, 251, 254544, 255, 255, 255⟩, ⟨255, 255, 250, 254430, 254, 254, 254⟩,
   ⟨100, 150, 200, 140750, 141, 141, 141⟩, ⟨171, 205, 239, 198710, 199, 199, 199⟩]

def lumaTies : List LumaRow :=
  [⟨0, 0, 250, 28500, 29, 28, 29⟩, ⟨0, 4, 168, 21500, 22, 22, 22⟩, ⟨0, 8, 86, 14500, 15, 14, 15⟩,
   ⟨0, 12, 4, 7500, 8, 8, 8⟩, ⟨0, 36, 12, 22500, 23, 22, 22⟩, ⟨0, 80, 110, 59500, 60, 60, 59⟩,
   ⟨0, 204, 68, 127500, 128, 128, 127⟩, ⟨1, 37, 13, 23500, 24, 24, 23⟩, ⟨2, 148, 9, 88500, 89, 88, 88⟩]

theorem test_luma_corners : lumaCorners.all LumaRow.ok = true := by decide
theorem test_luma_steps : lumaSteps.all LumaRow.ok = true := by decide
theorem test_luma_ties : lumaTies.all LumaRow.ok = true := by decide

/-! ### The cycle operations: vectors V1 to V12 of section 3, one step each -/

/-- A state before a cycle that drives `rst, in_valid, out_ready, in_data`. -/
def at_ (p : TiePolicy) (ov : Bool) (oy : Byte) (osof oeol : Bool) (rst inValid outReady : Bool) (inData : InWord) :
    State :=
  ⟨ov, oy, osof, oeol, p, [⟨rst, inValid, outReady, inData⟩], 0, [], []⟩

/-- What a vector shows: the operation, `in_ready`, `out_valid`, the beat delivered, and the register after the edge. -/
def shows (s : State) (op : String) (inReady outValid : Bool) (taken : Option OutWord) (ov : Bool) (oy : Byte)
    (osof oeol : Bool) : Bool :=
  s.currentInstr.mnemonic == op && s.inReady == inReady && s.outValid == outValid && s.takenBeat == taken &&
    (match step s with
     | .next t => t.ov == ov && t.oy == oy && t.osof == osof && t.oeol == oeol
     | .fault _ => false
     | .refused _ => false)

def v2 : State := at_ .up true 0x8D true false true true true 0x0FFFFFF
def v4 : State := at_ .up false 0x5A true true false false true 0
def v5 : State := at_ .up false 0x5A false true false true false 0x26496C8
def v7 : State := at_ .up true 0x8D true false false true false 0x0808080
def v9 : State := at_ .up true 0x8D true false false false true 0
def v10 : State := at_ .up true 0x8D true false false true true 0x1FFFFFF
def v12 (p : TiePolicy) : State := at_ p false 0x5A true true false true true 0x000240C

theorem test_reset_V2 : shows v2 "RESET" false false none false 0x8D true false = true := by decide
theorem test_idle_V3 : shows (at_ .up false 0x5A true true false false false 0) "IDLE" true false none false 0x5A true true = true := by
  decide
theorem test_idle_V4 : shows v4 "IDLE" true false none false 0x5A true true = true := by decide
theorem test_accept_V5 : shows v5 "ACCEPT" true false none true 0x8D true false = true := by decide
theorem test_accept_V12 :
    shows (v12 .up) "ACCEPT" true false none true 23 false false = true ∧
    shows (v12 .even) "ACCEPT" true false none true 22 false false = true ∧
    shows (v12 .float64Ref) "ACCEPT" true false none true 22 false false = true := by decide
theorem test_stall_V7 : shows v7 "STALL" false true none true 0x8D true false = true := by decide
theorem test_stall_V8 : shows (at_ .up true 0x8D true false false false false 0) "STALL" false true none true 0x8D true false = true := by
  decide
theorem test_emit_V9 : shows v9 "EMIT" true true (some 0x28D) false 0x8D true false = true := by decide
theorem test_pass_V10 : shows v10 "PASS" true true (some 0x28D) true 0xFF false true = true := by decide
theorem test_pass_V11 :
    shows (at_ .up true 0xFF false true false true true 0x1FFFFFF) "PASS" true true (some 0x1FF) true 0xFF false true = true := by
  decide

/-! ### Witnesses: states and operands that meet the hypotheses of the statements -/

/-- The cycles that the witnesses use. -/
def cReset : CycleInputs := StimLine.reset.drives
def cIdle : CycleInputs := StimLine.idle.drives
def cBlock : CycleInputs := StimLine.block.drives

/-- The register of a state that holds the image of black, the only beat accepted, before the cycles `cs`. -/
def holding (cs : List CycleInputs) : State :=
  ⟨true, 0, false, false, .up, cs, 0, [⟨false, false, 0, 0, 0⟩], []⟩

/-- An empty state before the cycles `cs`, with `oy` as it may be after a reset. -/
def emptyWith (oy : Byte) (cs : List CycleInputs) : State := ⟨false, oy, false, false, .up, cs, 0, [], []⟩

theorem witness_LumaIsTheRoundedWeightedSum : State.reset.tiePolicy = .up := rfl
theorem witness_TiePoliciesAgreeOffTies : (299 * (100 : Byte).toNat + 587 * (150 : Byte).toNat + 114 * (200 : Byte).toNat) % 1000 ≠ 500 := by
  decide
theorem witness_TiePoliciesOnTies : (299 * (0 : Byte).toNat + 587 * (36 : Byte).toNat + 114 * (12 : Byte).toNat) % 1000 = 500 := by
  decide
theorem witness_LumaIsMonotone : (0 : Byte).toNat ≤ (255 : Byte).toNat ∧ (TiePolicy.even = .up ∨ TiePolicy.even = .even) := by decide
theorem witness_wf : (Instr.pass ⟨true, true, 255, 0, 255⟩).wf = true ∧ Instr.reset.wf = true := by decide
theorem witness_NonBinaryTextIsRefused : ['1', 'z'].any isXOrZ = true := by decide
theorem witness_SendAlwaysFires :
    (emptyWith 0 [(StimLine.send noBeat).drives]).inputs = (StimLine.send noBeat).drives ∧
    (emptyWith 0 [(StimLine.hold noBeat).drives]).inputs = (StimLine.hold noBeat).drives ∧ (emptyWith 0 []).ov = false ∧
    (holding [(StimLine.hold noBeat).drives]).inputs = (StimLine.hold noBeat).drives ∧ (holding []).ov = true := by decide
theorem witness_operations_selected :
    v2.currentInstr = .reset ∧ v2.inputs.rst = true ∧ v4.currentInstr = .idle ∧
    v5.currentInstr = .accept ⟨true, false, 0x64, 0x96, 0xC8⟩ ∧ v7.currentInstr = .stall ∧ v9.currentInstr = .emit ∧
    v10.currentInstr = .pass ⟨false, true, 0xFF, 0xFF, 0xFF⟩ := by decide
theorem witness_ResetOperation : exec .reset v2 = .next v2.discard := rfl
theorem witness_StepRunsTheDecodedOperation :
    exec (decode v9.ctl v9.inputs.inData) v9 = .next v9.deliver ∧ v9.stimulus = [⟨false, false, true, 0⟩] ∧
    State.reset.stimulus = [] := ⟨rfl, rfl, rfl⟩
theorem witness_PortEquations :
    v9.inputs.rst = v10.inputs.rst ∧ v9.ov = v10.ov ∧ v9.inputs.outReady = v10.inputs.outReady := by decide
theorem witness_steps :
    step v2 = .next v2.discard.nextCycle ∧ step v10 = .next (v10.deliver.load v10.offeredBeat).nextCycle := ⟨rfl, rfl⟩
theorem witness_ResetTakesPrecedence : v2.inputs.rst = true ∧ v10.inFire = true ∧ v10.outFire = true := by decide
theorem witness_InDataIsIgnoredWithoutAFire :
    v7.stimulus = [⟨false, true, false, 0x0808080⟩] ∧ v7.currentInstr = .stall := by decide
theorem witness_OfferIsStable :
    (holding [cBlock, cIdle]).outValid = true ∧ (holding [cBlock, cIdle]).inputs.outReady = false ∧
    (holding [cBlock, cIdle]).inputs.rst = false ∧ step (holding [cBlock, cIdle]) = .next (holding [cIdle]) ∧
    (holding [cIdle]).inputs.rst = false := ⟨rfl, rfl, rfl, rfl, rfl⟩
theorem witness_AcceptedPixelIsOfferedNextCycle :
    (emptyWith 7 [(StimLine.send noBeat).drives, cIdle]).inFire = true ∧
    ∃ t, step (emptyWith 7 [(StimLine.send noBeat).drives, cIdle]) = .next t ∧ t.inputs.rst = false := ⟨rfl, _, rfl, rfl⟩
theorem witness_HandshakesMakeProgress :
    v9.inputs.rst = false ∧ v9.ov = true ∧ v9.inputs.outReady = true ∧
    v5.inputs.rst = false ∧ v5.inputs.inValid = true ∧ v5.ov = false ∧
    v10.inputs.inValid = true ∧ v10.inputs.outReady = true ∧ v7.inputs.rst = false ∧ v7.inputs.outReady = false := by decide
theorem witness_StallLastsWhileTheConsumerWaits :
    (holding [cBlock, cBlock, cIdle]).ov = true ∧ (holding [cBlock, cBlock, cIdle]).stimulus = [cBlock, cBlock] ++ [cIdle] ∧
    ∀ c ∈ [cBlock, cBlock], c.rst = false ∧ c.outReady = false := by decide
theorem witness_HeldOfferIsTakenOnce :
    (holding [⟨false, true, false, 5⟩, ⟨false, true, true, 5⟩, cIdle]).stimulus =
      List.replicate 1 ⟨false, true, false, 5⟩ ++ ⟨false, true, true, 5⟩ :: [cIdle] := by decide

/-- The two states of a pixel offered in a cycle that stalls and taken in the next. -/
def heldRun (k : Nat) : State :=
  if k = 0 then holding [⟨false, true, false, 5⟩, ⟨false, true, true, 5⟩] else holding [⟨false, true, true, 5⟩]

theorem witness_HeldOfferIsThePixelTaken :
    (∀ k, k < 1 → step (heldRun k) = .next (heldRun (k + 1)) ∧ offerHeld (heldRun k) (heldRun (k + 1)) = true ∧
      (heldRun k).inFire = false) ∧ (heldRun 0).inputs.inValid = true ∧ (heldRun 1).inFire = true := by
  refine ⟨fun k hk => ?_, rfl, rfl⟩
  obtain rfl : k = 0 := by omega
  exact ⟨rfl, rfl, rfl⟩

theorem witness_ResetEdgeStartsOver : v2.inputs.rst = true ∧ v2.ov = true := by decide
theorem witness_ManyResetCyclesAreOne :
    (holding [cReset, cReset, cIdle]).stimulus = cReset :: [cReset] ++ [cIdle] ∧ ∀ d ∈ [cReset, cReset], d.rst = true := by
  decide
theorem witness_DrainedMeansAllDelivered :
    (emptyWith 3 [cIdle]).seenDrained = true ∧ (emptyWith 3 [cIdle]).inputs.rst = false ∧ (emptyWith 3 [cIdle]).ov = false ∧
    (emptyWith 3 [cIdle]).Inv := ⟨rfl, rfl, rfl, rfl⟩
theorem witness_StepKeepsTheStreamContract :
    (holding [cIdle]).Inv ∧ step (holding [cIdle]) = .next (holding [cIdle]).deliver.nextCycle := by
  refine ⟨?_, rfl⟩
  unfold State.Inv
  decide
theorem witness_ResetStateIsEmptyAndReady : (State.reset.withProgram [cIdle]).inputs.rst = false := by decide
theorem witness_ReachableStatesMeetTheStreamContract : ∃ s, Reachable s ∧ s.ov = true :=
  ⟨_, .step _ _ (.start .even 7 true false [(StimLine.send noBeat).drives]) rfl, rfl⟩
theorem witness_UnknownFieldsAreNeverSeen :
    (emptyWith 3 [cIdle]).SameToHost (emptyWith 4 [cIdle]) ∧ emptyWith 3 [cIdle] ≠ emptyWith 4 [cIdle] ∧
    step (emptyWith 3 [cIdle]) = .next (emptyWith 3 []) ∧ step (emptyWith 4 [cIdle]) = .next (emptyWith 4 []) := by
  refine ⟨⟨rfl, by decide, rfl, rfl, rfl, rfl, rfl⟩, by decide, rfl, rfl⟩
theorem witness_OnePixelPerCycle :
    (emptyWith 3 [⟨false, true, true, 1⟩, ⟨false, true, true, 2⟩, ⟨false, false, true, 0⟩]).stimulus =
      [1, 2].map (fun w => ⟨false, true, true, w⟩) ++ ⟨false, false, true, 0⟩ :: [] := by decide

/-- The raster of the first frame of program P3 (`95_test_vectors.md` section 5). -/
def rasterP3 : Raster := ⟨2, [[⟨0, 0, 250⟩, ⟨0, 36, 12⟩], [⟨0, 12, 4⟩, ⟨18, 52, 86⟩]]⟩

/-- The state that has delivered that frame and one beat before it. -/
def afterP3 : State :=
  ⟨false, 0, false, false, .up, [], 0, ⟨false, true, 0, 0, 0⟩ :: rasterBeats rasterP3,
    [0x100, 0x21D, 0x117, 0x008, 0x12E]⟩

theorem test_raster_beats_T3 : rasterBeats rasterP3 = frameT3 := by decide
theorem test_plane_P3 : luminancePlane .up rasterP3 = [[29, 23], [8, 46]] := by decide
theorem witness_RasterIsPresentedRowMajor : rasterP3.wf = true ∧ pixelAt rasterP3 1 1 = some ⟨18, 52, 86⟩ := by decide
theorem witness_FrameDeliversTheLuminancePlane :
    afterP3.Inv ∧ rasterP3.wf = true ∧
    afterP3.accepted = [⟨false, true, 0, 0, 0⟩] ++ rasterBeats rasterP3 ++ [] ∧ afterP3.ov = false ∧
    ((luminancePlane afterP3.tiePolicy rasterP3)[1]?.bind fun row => row[1]?) = some 46 ∧
    [(⟨false, true, 0, 0, 0⟩ : InBeat)].length + (1 * rasterP3.width + 1) < afterP3.delivered.length := by
  unfold State.Inv
  decide
/-- The empty state after that frame, before the cycles `cs`. -/
def afterFrame (cs : List CycleInputs) : State := { afterP3 with stimulus := cs }

theorem witness_FrameTakesOneCycleMoreThanItsPixels :
    ∃ s : State, rasterP3.wf = true ∧ s.ov = false ∧ s.delivered.countP startsFrame = 1 ∧
      s.stimulus = (rasterBeats rasterP3).map (fun beat => ⟨false, true, true, beat.toWord⟩) ++
        ⟨false, false, true, 0⟩ :: [] :=
  ⟨afterFrame _, rfl, rfl, rfl, rfl⟩

/-- Beside the frame of P3 after a stray beat: it is frame 0 and complete with the fifth beat, not with the fourth. -/
theorem test_frame_after_a_stray_beat :
    frameComplete 2 2 0 (afterP3.delivered.take 4) = false ∧ frameComplete 2 2 0 afterP3.delivered = true := by decide
/-- The next frame has begun with one beat: it is not complete, although five beats of frames are delivered. -/
theorem test_second_frame_not_complete :
    frameComplete 2 2 1 (afterP3.delivered ++ [0x200]) = false ∧
    frameComplete 2 2 1 (afterP3.delivered ++ [0x200, 0x100, 0x000, 0x100]) = true := by decide
theorem witness_FrameIsCompleteAtItsLastBeat :
    afterP3.Inv ∧ rasterP3.wf = true ∧ afterP3.accepted = [⟨false, true, 0, 0, 0⟩] ++ rasterBeats rasterP3 ++ [] ∧
    [(⟨false, true, 0, 0, 0⟩ : InBeat)].length + rasterP3.width * rasterP3.rows.length = afterP3.delivered.length ∧
    v9.inputs.rst = false := by
  unfold State.Inv
  decide
theorem witness_TransactionModelKeepsOrder :
    (Tlm.mk 2 .up [0x000] [⟨false, false, 0, 0, 0⟩] []).delivered ++ [0x000] =
      [⟨false, false, 0, 0, 0⟩].map (beatImage .up) ∧
    (Tlm.step (Tlm.mk 2 .up [0x000] [⟨false, false, 0, 0, 0⟩] []) ⟨false, true, some ⟨true, false, 255, 255, 255⟩⟩) =
      some (Tlm.mk 2 .up [0x2FF] [⟨false, false, 0, 0, 0⟩, ⟨true, false, 255, 255, 255⟩] [0x000]) := by decide
theorem witness_ResolvedInputsAgreeWithThePorts :
    resolveCycle v9 false (fun ready _ _ _ => (ready, 5)) (fun _ valid _ _ => valid) = .ok ⟨false, true, true, 5⟩ := by
  decide
/-- The forbidden paths: `out_ready` follows `in_ready` directly, through `in_valid` (the rule's example), through
`in_data`; and it follows itself through the producer. -/
theorem test_loops_are_refused :
    resolveCycle v9 false (fun _ _ _ _ => (true, 5)) (fun ready _ _ _ => ready) = .error .combinationalLoop ∧
    resolveCycle v9 false (fun ready _ _ _ => (ready, 5)) (fun _ _ _ offer => offer.1) = .error .combinationalLoop ∧
    resolveCycle v9 false (fun ready _ _ _ => (true, if ready then 5 else 4)) (fun _ _ _ offer => offer.2 == 5) =
      .error .combinationalLoop ∧
    resolveCycle v9 false (fun _ _ _ out => (out, 5)) (fun _ _ _ offer => !offer.1) = .error .combinationalLoop := by
  decide

/-! ### The word that the step fetches (notes/assumptions/3.md) -/

theorem test_fetched_emit_runs_first :
    (State.reset.withFetchWord 8 0b0101).currentInstr = .emit ∧
    ∃ t, step (State.reset.withFetchWord 8 0b0101) = .next t ∧ t.ov = false ∧ t.stimulus = [] := ⟨rfl, _, rfl, rfl, rfl⟩

end Sys2Proof.Tests
end

/-! ### The stability of an offer (`20_memory.md` R53) -/

namespace Sys2Proof.Machine

/-- An offer stands exactly in a cycle that holds a value and does not reset (R100). -/
theorem State.outValid_iff (s : State) : s.outValid = true ↔ s.inputs.rst = false ∧ s.ov = true := by
  simp [State.outValid, outValidOf]

/-- A full block whose consumer waits stalls: the step is the next cycle and nothing else (R104). -/
theorem step_of_stall (s : State) (hrst : s.inputs.rst = false) (hov : s.ov = true)
    (hready : s.inputs.outReady = false) : step s = .next s.nextCycle := by
  simp [step_eq, hrst, hov, hready]

/-- Settles O36: the cycle of an offer that is not taken is a STALL, which keeps the register, and the next cycle offers
what the register holds unless it resets. -/
theorem offerIsStable : Obligations.OfferIsStable := by
  intro s t hvalid hready hrst hstep hrst'
  obtain ⟨-, hov⟩ := s.outValid_iff.mp hvalid
  obtain rfl : s.nextCycle = t := by simpa [step_of_stall s hrst hov hready] using hstep
  have hov' : s.nextCycle.ov = true := by simpa using hov
  exact ⟨s.nextCycle.outValid_iff.mpr ⟨hrst', hov'⟩, s.nextCycle_outData⟩

end Sys2Proof.Machine

/-! ### The operation map selects (`30_encoding.md` R67, R69) -/

namespace Sys2Proof

/-- Every operation's row bears its mnemonic and stands in the operation map (R67). -/
theorem Instr.row_in_map (i : Instr) : i.row.mnemonic = i.mnemonic ∧ i.row ∈ opTable := by
  cases i <;> exact ⟨rfl, by simp [opTable, Instr.row]⟩

/-- The rows that select a control vector are the decoder's own row and no other (R69). -/
theorem selecting_rows_eq (c : Ctl) (d : InWord) :
    opTable.filter (fun row => row.selects c) = [(decode c d).row] := by
  rw [← ctlWord_of_bits c, decode_ctlWord]
  cases c.getLsbD 3 <;> cases c.getLsbD 2 <;> cases c.getLsbD 1 <;> cases c.getLsbD 0 <;> rfl

/-- The decoder takes no operand but the beat on `in_data` (R66). -/
theorem decode_operand (c : Ctl) (d : InWord) : ∀ beat ∈ (decode c d).operand, beat = InBeat.ofWord d := by
  unfold decode
  split <;> simp [Instr.operand]

/-- An operation is its row and its operand. -/
theorem Instr.eq_of_row_eq (i j : Instr) (offered : InBeat) (hrow : i.row = j.row)
    (hi : ∀ beat ∈ i.operand, beat = offered) (hj : ∀ beat ∈ j.operand, beat = offered) : i = j := by
  cases i <;> cases j <;> simp_all [Instr.row, Instr.operand]

/-- An operation on the offered beat is decoded exactly when its row selects the control vector (R67): the decoder's row
does, and no second row can. -/
theorem decode_eq_iff_selects (c : Ctl) (d : InWord) (i : Instr) (hi : ∀ beat ∈ i.operand, beat = InBeat.ofWord d) :
    decode c d = i ↔ i.row.selects c = true := by
  have hrows := List.mem_filter (p := fun row => row.selects c) (x := i.row) (as := opTable)
  rw [selecting_rows_eq c d, List.mem_singleton, and_iff_right i.row_in_map.2] at hrows
  rw [← hrows]
  exact ⟨fun h => h ▸ rfl, fun hrow => (i.eq_of_row_eq _ _ hrow hi (decode_operand c d)).symm⟩

/-- Settles O13: the decoder's row is the one that selects. -/
theorem operationMapCompleteAndDisjoint : Obligations.OperationMapCompleteAndDisjoint :=
  ⟨selecting_rows_eq, Instr.row_in_map, by decide⟩

/-- Settles O12: `(ctl & mask) = match` is what it means that the operation's row selects. -/
theorem operationMapSelects : Obligations.OperationMapSelects := by
  intro c d
  have hrow := fun i hi => (decode_eq_iff_selects c d i hi).trans beq_iff_eq
  refine ⟨hrow .reset ?_, hrow .idle ?_, hrow (.accept _) ?_, hrow .stall ?_, hrow .emit ?_, hrow (.pass _) ?_⟩ <;>
    simp [Instr.operand]

end Sys2Proof

/-! ### The layout of an input beat (`30_encoding.md` R60, R63) -/

namespace Sys2Proof

/-- Taking a word apart and putting it together gives the word back (R60). -/
@[simp] theorem InBeat.toWord_ofWord (w : InWord) : (InBeat.ofWord w).toWord = w := by
  apply BitVec.eq_of_getLsbD_eq
  intro i hi
  rw [InBeat.toWord_bit]
  split_ifs with hb hg hr heol hsof
  · simp [InBeat.ofWord, hb]
  · simp [InBeat.ofWord, show i - 8 < 8 by omega, show 8 + (i - 8) = i by omega]
  · simp [InBeat.ofWord, show i - 16 < 8 by omega, show 16 + (i - 16) = i by omega]
  · rw [heol]; rfl
  · rw [hsof]; rfl
  · omega

/-- Putting a beat together and taking it apart gives the beat back (R60). -/
@[simp] theorem InBeat.ofWord_toWord (beat : InBeat) : InBeat.ofWord beat.toWord = beat := by
  have hsof : beat.toWord.getLsbD 25 = beat.sof := by simp only [InBeat.toWord_bit]; rfl
  have heol : beat.toWord.getLsbD 24 = beat.eol := by simp only [InBeat.toWord_bit]; rfl
  have hr : beat.toWord.extractLsb' 16 8 = beat.r := by
    apply BitVec.eq_of_getLsbD_eq
    intro i hi
    simp [InBeat.toWord_bit, hi, show 16 + i < 24 by omega, show ¬ 16 + i < 8 by omega]
  have hg : beat.toWord.extractLsb' 8 8 = beat.g := by
    apply BitVec.eq_of_getLsbD_eq
    intro i hi
    simp [InBeat.toWord_bit, hi, show 8 + i < 16 by omega]
  have hb : beat.toWord.extractLsb' 0 8 = beat.b := by
    apply BitVec.eq_of_getLsbD_eq
    intro i hi
    simp [InBeat.toWord_bit, hi]
  simp only [InBeat.ofWord, hsof, heol, hr, hg, hb]

/-- The slice of eight bits above the lowest `k`, in arithmetic. -/
theorem byteSlice_toNat {n : Nat} (w : BitVec n) (k : Nat) : (w.extractLsb' k 8).toNat = w.toNat / 2 ^ k % 256 := by
  rw [BitVec.extractLsb'_toNat, Nat.shiftRight_eq_div_pow]

/-- Settles O9: the slices in arithmetic, and the two round trips. -/
theorem inputBeatLayout : Obligations.InputBeatLayout := by
  refine ⟨fun w => ⟨rfl, rfl, byteSlice_toNat w 16, byteSlice_toNat w 8, ?_, InBeat.toWord_ofWord w⟩,
    InBeat.ofWord_toWord, Machine.zext18_toNat⟩
  exact (byteSlice_toNat w 0).trans (by rw [pow_zero, Nat.div_one])

end Sys2Proof

/-! ### The layout of an output beat, and that each one appears (`30_encoding.md` R62, R65) -/

namespace Sys2Proof.Machine

/-- Off a tie the binary64 reference rounds to nearest: its error is below the distance to the next tie (R87). -/
theorem floorPlusHalf64_off_tie (r g b S : Nat) (hr : r ≤ 255) (hg : g ≤ 255) (hb : b ≤ 255)
    (hS : S = 299 * r + 587 * g + 114 * b) (hoff : S % 1000 ≠ 500) :
    floorPlusHalf64 (luma64 r g b) = (S + 500) / 1000 := by
  obtain ⟨hle, hge⟩ := luma64_close r g b hr hg hb
  rw [← hS] at hle hge
  have hbound : S ≤ 255000 := by omega
  have herr := roundBinary64_error (luma64 r g b + 2 ^ 55) 1 (by omega) (by omega)
  unfold floorPlusHalf64
  generalize luma64 r g b = x at *
  generalize roundBinary64 (x + 2 ^ 55) 1 = rounded at *
  have hnear : rounded ≤ x + 2 ^ 55 + 2 ^ 12 ∧ x + 2 ^ 55 ≤ rounded + 2 ^ 12 := by omega
  clear hS herr
  generalize hq : (S + 500) / 1000 = q
  have hlow : 1000 * q + 1 ≤ S + 500 := by omega
  have hhigh : S + 500 ≤ 1000 * q + 999 := by omega
  clear hoff hq
  omega

/-- Off a tie every policy rounds to nearest (R86, R87). -/
theorem roundedSum_off_tie (p : TiePolicy) (r g b : Byte)
    (hoff : (299 * r.toNat + 587 * g.toNat + 114 * b.toNat) % 1000 ≠ 500) :
    (roundedSum p r g b).toNat = (299 * r.toNat + 587 * g.toNat + 114 * b.toNat + 500) / 1000 := by
  have hr := r.isLt; have hg := g.isLt; have hb := b.isLt
  have htie : ¬ isTie (weightedSum r g b) = true := by rwa [isTie_iff, weightedSum_toNat]
  have hhalf := roundHalfUp_toNat _ (weightedSum_le r g b)
  rw [weightedSum_toNat] at hhalf
  cases p with
  | up => exact hhalf
  | even => simpa [roundedSum, htie] using hhalf
  | draw => simpa [roundedSum, htie] using hhalf
  | float64Ref =>
    simp only [roundedSum, floorPlusHalf64_off_tie _ _ _ _ (by omega) (by omega) (by omega) rfl hoff,
      BitVec.toNat_ofNat]
    omega

/-- A gray pixel maps to its own value: its weighted sum is a whole number of thousands, which is no tie (R88). -/
@[simp] theorem luma_gray (p : TiePolicy) (v : Byte) : luma p v v v = v := by
  have hv := v.isLt
  have hsum : (roundedSum p v v v).toNat = v.toNat := by
    rw [roundedSum_off_tie p v v v (by omega)]; omega
  apply BitVec.eq_of_toNat_eq
  rw [luma_toNat p v v v (by omega), hsum]

/-- A word is the output beat of its own three slices (R62). -/
theorem outWord_of_slices (w : OutWord) : outWord (w.getLsbD 9) (w.getLsbD 8) (w.extractLsb' 0 8) = w := by
  apply BitVec.eq_of_getLsbD_eq
  intro i hi
  rw [outWord_bit]
  split_ifs with hy heol hsof
  · simp [hy]
  · rw [heol]
  · rw [hsof]
  · omega

/-- Every word is the image of a gray pixel with the word's marks (R62, R88). -/
theorem exists_beatImage_eq (p : TiePolicy) (w : OutWord) : ∃ beat : InBeat, beatImage p beat = w := by
  refine ⟨⟨w.getLsbD 9, w.getLsbD 8, w.extractLsb' 0 8, w.extractLsb' 0 8, w.extractLsb' 0 8⟩, ?_⟩
  rw [beatImage, luma_gray, outWord_of_slices]

/-- An empty register takes the beat that is offered to it (R103). -/
theorem step_of_accept (s : State) (hrst : s.inputs.rst = false) (hov : s.ov = false)
    (hvalid : s.inputs.inValid = true) : step s = .next (s.load s.offeredBeat).nextCycle := by
  simp [step_eq, hrst, hov, hvalid]

/-- The block after reset, about to run the program of two lines `SEND` of the beat and `IDLE` (R72). -/
def sendThenIdle (p : TiePolicy) (beat : InBeat) : State :=
  { State.reset with tiePolicy := p, stimulus := [(StimLine.send beat).drives, StimLine.idle.drives] }

/-- The `SEND` is an ACCEPT of its beat. -/
theorem step_sendThenIdle (p : TiePolicy) (beat : InBeat) :
    step (sendThenIdle p beat) = .next ((sendThenIdle p beat).load beat).nextCycle := by
  have hoffered : (sendThenIdle p beat).offeredBeat = beat := beat.ofWord_toWord
  rw [step_of_accept (sendThenIdle p beat) rfl rfl rfl, hoffered]

/-- The image of every beat is offered in a run from reset, under every tie policy. -/
theorem exists_reachable_offer (p : TiePolicy) (beat : InBeat) :
    ∃ s : State, Reachable s ∧ s.tiePolicy = p ∧ s.outValid = true ∧ s.outData = beatImage p beat :=
  ⟨((sendThenIdle p beat).load beat).nextCycle,
    .step _ _ (.start p Config.resetOy Config.resetOsof Config.resetOeol _) (step_sendThenIdle p beat), rfl, rfl, rfl⟩

/-- `oy` is the low byte of `out_data` (R62). -/
theorem State.outData_low (s : State) : s.outData.toNat % 256 = s.oy.toNat := by
  have h := byteSlice_toNat s.outData 0
  rw [State.outData, outWord_y] at h
  simpa [State.outData] using h.symm

/-- Settles O10: the layout of `out_data`, and a run of two cycles for each word, with the gray pixel of its `y`. -/
theorem outputBeatLayout : Obligations.OutputBeatLayout := by
  refine ⟨fun s => ⟨outWord_sof .., outWord_eol .., s.outData_low⟩, fun p w => ?_⟩
  obtain ⟨beat, rfl⟩ := exists_beatImage_eq p w
  exact ⟨⟨beat, rfl⟩, exists_reachable_offer p beat⟩

end Sys2Proof.Machine

/-! ### The pseudo-instructions (`30_encoding.md` R72) -/

namespace Sys2Proof.Machine

/-- Settles O19: each pseudo-instruction's drives are those of its cycle line, and the cycles of an entry are copies of
the one its line drives. -/
theorem pseudoInstructionsExpand : Obligations.PseudoInstructionsExpand :=
  ⟨rfl, rfl, rfl, fun _ => ⟨rfl, rfl⟩, by decide,
    fun _ _ => ⟨List.length_replicate, fun _ => List.eq_of_mem_replicate⟩⟩

end Sys2Proof.Machine

/-! ### The weighted sum and its rounding in 18 bits, and the clamp (`40_luma_function.md` R83 to R85) -/

namespace Sys2Proof.Machine

/-- A weight of at most ten bits times a channel does not wrap in 18 bits (R84). -/
theorem weight_mul_toNat (k : Nat) (v : Byte) (hk : k < 2 ^ 10) :
    (BitVec.ofNat 18 k * zext18 v).toNat = k * v.toNat := by
  have hprod : k * v.toNat < 2 ^ 10 * 2 ^ 8 := Nat.mul_lt_mul'' hk v.isLt
  rw [BitVec.toNat_mul, zext18_toNat, BitVec.toNat_ofNat, Nat.mod_eq_of_lt (show k < 2 ^ 18 by omega),
    Nat.mod_eq_of_lt (by omega)]

/-- The sum with the rounding offset does not wrap (R84). -/
theorem weightedSum_add_half_toNat (r g b : Byte) :
    (weightedSum r g b + BitVec.ofNat 18 Config.half).toNat = (weightedSum r g b).toNat + 500 := by
  have hle := weightedSum_le r g b
  rw [BitVec.toNat_add, show (BitVec.ofNat 18 Config.half).toNat = 500 from rfl, Nat.mod_eq_of_lt (by omega)]

/-- Under UP the rounded value is the exact sum rounded half up (R83). -/
theorem roundedSum_up_toNat (r g b : Byte) :
    (roundedSum .up r g b).toNat = (299 * r.toNat + 587 * g.toNat + 114 * b.toNat + 500) / 1000 := by
  rw [← weightedSum_toNat]
  exact roundHalfUp_toNat _ (weightedSum_le r g b)

/-- LUMA is the clamp of the rounded value: the clamp leaves nothing for the slice `[7:0]` to cut off (R83). -/
theorem luma_toNat_eq_clamp (p : TiePolicy) (r g b : Byte) :
    (luma p r g b).toNat = clamp (roundedSum p r g b).toNat 0 255 := by
  have hclamp : clamp (roundedSum p r g b).toNat 0 255 ≤ 255 := by
    unfold clamp; split_ifs <;> omega
  rw [luma, BitVec.toNat_ofNat, Nat.mod_eq_of_lt (by omega)]

/-- The successor of the lower neighbour does not wrap in 18 bits (R87). -/
theorem upperNeighbour_toNat (S : Acc) : (lowerNeighbour S + 1).toNat = S.toNat / 1000 + 1 := by
  have hS := S.isLt
  rw [BitVec.toNat_add, lowerNeighbour_toNat, show (1 : Acc).toNat = 1 from rfl, Nat.mod_eq_of_lt (by omega)]

/-- Choosing the upper neighbour on a condition gives one of the two neighbours (R87, D9). -/
theorem chosenNeighbour_toNat (c : Prop) [Decidable c] (S : Acc) :
    (if c then lowerNeighbour S + 1 else lowerNeighbour S).toNat = S.toNat / 1000 ∨
    (if c then lowerNeighbour S + 1 else lowerNeighbour S).toNat = S.toNat / 1000 + 1 := by
  split
  · exact .inr (upperNeighbour_toNat S)
  · exact .inl (lowerNeighbour_toNat S)

/-- On a tie the binary64 reference gives one of the two neighbours: its error is less than the distance to the next
multiple of a thousand (R87). -/
theorem floorPlusHalf64_on_tie (r g b S : Nat) (hr : r ≤ 255) (hg : g ≤ 255) (hb : b ≤ 255)
    (hS : S = 299 * r + 587 * g + 114 * b) (htie : S % 1000 = 500) :
    floorPlusHalf64 (luma64 r g b) = S / 1000 ∨ floorPlusHalf64 (luma64 r g b) = S / 1000 + 1 := by
  obtain ⟨hle, hge⟩ := luma64_close r g b hr hg hb
  rw [← hS] at hle hge
  obtain ⟨q, rfl⟩ : ∃ q, S = 1000 * q + 500 := ⟨S / 1000, by omega⟩
  have hq : q ≤ 254 := by omega
  have herr := roundBinary64_error (luma64 r g b + 2 ^ 55) 1 (by omega) (by omega)
  unfold floorPlusHalf64
  generalize luma64 r g b = x at *
  generalize roundBinary64 (x + 2 ^ 55) 1 = rounded at *
  have hnear : rounded ≤ x + 2 ^ 55 + 2 ^ 12 ∧ x + 2 ^ 55 ≤ rounded + 2 ^ 12 := by omega
  clear hS herr htie
  omega

/-- On a tie every policy gives one of the two neighbours (R86, R87, D9). -/
theorem roundedSum_on_tie (p : TiePolicy) (r g b : Byte) (htie : (weightedSum r g b).toNat % 1000 = 500) :
    (roundedSum p r g b).toNat = (weightedSum r g b).toNat / 1000 ∨
    (roundedSum p r g b).toNat = (weightedSum r g b).toNat / 1000 + 1 := by
  have hle := weightedSum_le r g b
  have hT := (isTie_iff (weightedSum r g b)).mpr htie
  cases p with
  | up =>
    right
    rw [roundedSum_up_toNat, ← weightedSum_toNat]
    omega
  | even =>
    simp only [roundedSum, hT, if_true]
    exact chosenNeighbour_toNat _ _
  | draw =>
    simp only [roundedSum, hT, if_true]
    exact chosenNeighbour_toNat _ _
  | float64Ref =>
    have hr := r.isLt; have hg := g.isLt; have hb := b.isLt
    have hfloor := floorPlusHalf64_on_tie r.toNat g.toNat b.toNat _ (by omega) (by omega) (by omega)
      (weightedSum_toNat r g b) htie
    simp only [roundedSum, BitVec.toNat_ofNat]
    omega

/-- Under every tie policy the rounded value is within a channel's range: no tie is above 254500 (R85). -/
theorem roundedSum_le (p : TiePolicy) (r g b : Byte) : (roundedSum p r g b).toNat ≤ 255 := by
  have hle := weightedSum_le r g b
  by_cases htie : (weightedSum r g b).toNat % 1000 = 500
  · rcases roundedSum_on_tie p r g b htie with h | h <;> omega
  · rw [weightedSum_toNat] at hle htie
    rw [roundedSum_off_tie p r g b htie]
    omega

/-- Settles O2: a weight times a channel, the sum, and the sum with the offset stay below `2 ^ 18`. -/
theorem weightedSumNeverWraps : Obligations.WeightedSumNeverWraps := by
  refine ⟨fun r g b => ?_, by decide, rfl, by decide⟩
  have hr := r.isLt; have hg := g.isLt; have hb := b.isLt
  have hle := weightedSum_le r g b
  exact ⟨weight_mul_toNat Config.wR r (by decide), by omega, weight_mul_toNat Config.wG g (by decide), by omega,
    weight_mul_toNat Config.wB b (by decide), by omega, weightedSum_toNat r g b, hle,
    weightedSum_add_half_toNat r g b, by omega⟩

/-- Settles O3: the rounded value is at most 255 on a tie and off it, so the clamp gives it back. -/
theorem clampNeverActs : Obligations.ClampNeverActs := by
  refine ⟨rfl, fun p r g b => ?_⟩
  have hle := roundedSum_le p r g b
  exact ⟨weightedSum_le r g b, hle, clamp_of_le _ _ hle, luma_toNat p r g b hle⟩

/-- Settles O1: LUMA in exact arithmetic, and the two operations that load the beat of the word's slices. -/
theorem lumaIsTheRoundedWeightedSum : Obligations.LumaIsTheRoundedWeightedSum := by
  refine ⟨fun r g b => ⟨weightedSum_toNat r g b, roundedSum_up_toNat r g b, ?_⟩, by decide, fun s w hup => ?_⟩
  · rw [luma_toNat_eq_clamp, roundedSum_up_toNat]
  · have haccept := State.load_oy (InBeat.ofWord w) s
    have hpass := State.load_oy (InBeat.ofWord w) s.deliver
    rw [State.deliver_tiePolicy] at hpass
    rw [hup] at haccept hpass
    exact ⟨⟨_, rfl, haccept⟩, ⟨_, rfl, hpass⟩⟩

end Sys2Proof.Machine

/-! ### The port equations (`41_cycle_operations.md` R100) -/

namespace Sys2Proof.Machine

/-- The five port equations, in every state (R100). -/
theorem State.ports_eq (s : State) :
    s.inReady = (!s.inputs.rst && (!s.ov || s.inputs.outReady)) ∧
    s.outValid = (!s.inputs.rst && s.ov) ∧
    s.outData = outWord s.osof s.oeol s.oy ∧
    s.inFire = (s.inputs.inValid && s.inReady) ∧
    s.outFire = (s.outValid && s.inputs.outReady) :=
  ⟨rfl, rfl, rfl, rfl, rfl⟩

/-- Settles O33: neither `in_valid` nor `in_data` stands in the equations of `in_ready` and `out_valid`. -/
theorem portEquations : Obligations.PortEquations := by
  refine ⟨State.ports_eq, fun s t hrst hov => ⟨?_, fun hready => ?_⟩⟩
  · simp [State.ports_eq, hrst, hov]
  · simp [State.ports_eq, hrst, hov, hready]

end Sys2Proof.Machine

/-! ### The six cycle operations (`41_cycle_operations.md` R101 to R106) -/

namespace Sys2Proof.Machine

/-- The signals under which an operation is the one of the cycle: the condition column of R67, with the beat on `in_data`
as operand (R66). -/
def State.Selects (s : State) : Instr → Prop
  | .reset => s.inputs.rst = true
  | .idle => s.inputs.rst = false ∧ s.ov = false ∧ s.inputs.inValid = false
  | .accept beat => s.inputs.rst = false ∧ s.ov = false ∧ s.inputs.inValid = true ∧ beat = s.offeredBeat
  | .stall => s.inputs.rst = false ∧ s.ov = true ∧ s.inputs.outReady = false
  | .emit => s.inputs.rst = false ∧ s.ov = true ∧ s.inputs.inValid = false ∧ s.inputs.outReady = true
  | .pass beat => s.inputs.rst = false ∧ s.ov = true ∧ s.inputs.inValid = true ∧ s.inputs.outReady = true ∧
      beat = s.offeredBeat

/-- The operation of the cycle is one that the signals select. -/
theorem State.selects_currentInstr (s : State) : s.Selects s.currentInstr := by
  rw [currentInstr_eq]
  split_ifs <;> simp_all [State.Selects]

/-- An operation that the signals select is the operation of the cycle. -/
theorem State.currentInstr_of_selects (s : State) (i : Instr) (h : s.Selects i) : s.currentInstr = i := by
  rw [currentInstr_eq]
  cases i <;> simp_all [State.Selects]

/-- The signals select the operation of the cycle and no other (R67, R69). -/
theorem State.currentInstr_eq_iff (s : State) (i : Instr) : s.currentInstr = i ↔ s.Selects i :=
  ⟨fun h => h ▸ s.selects_currentInstr, s.currentInstr_of_selects i⟩

/-- Settles O23: `rst` alone selects RESET and closes both ports; a discard leaves nothing for a second one. -/
theorem resetOperation : Obligations.ResetOperation := by
  refine fun s => ⟨s.currentInstr_eq_iff .reset, fun hrst => ?_, exec_eq .reset s, fun t ht => ?_⟩
  · simp [s.ports_eq, hrst]
  · obtain rfl : s.discard = t := by simpa [exec_eq] using ht
    exact exec_eq .reset s.discard

/-- Settles O24: an empty register is ready, whatever `out_ready` is, and offers nothing. -/
theorem idleOperation : Obligations.IdleOperation := by
  refine fun s => ⟨s.currentInstr_eq_iff .idle, fun h => ?_, exec_eq .idle s⟩
  obtain ⟨hrst, hov, hvalid⟩ := (s.currentInstr_eq_iff .idle).mp h
  simp [s.ports_eq, hrst, hov, hvalid]

/-- Settles O25: an empty register is ready, so the offered beat fires, and the transfer is `State.load`. -/
theorem acceptOperation : Obligations.AcceptOperation := by
  refine fun s beat => ⟨s.currentInstr_eq_iff (.accept beat), fun h => ?_, exec_eq (.accept beat) s⟩
  obtain ⟨hrst, hov, hvalid, -⟩ := (s.currentInstr_eq_iff (.accept beat)).mp h
  simp [s.ports_eq, hrst, hov, hvalid]

/-- Settles O26: a full register offers its value and is not ready without the consumer; the next cycle finds the register
and the lists as they were. -/
theorem stallOperation : Obligations.StallOperation := by
  refine fun s => ⟨s.currentInstr_eq_iff .stall, fun h => ?_, exec_eq .stall s, fun h => ?_⟩ <;>
    obtain ⟨hrst, hov, hready⟩ := (s.currentInstr_eq_iff .stall).mp h
  · simp [s.ports_eq, hrst, hov, hready]
  · exact ⟨step_of_stall s hrst hov hready, s.nextCycle_ov.trans hov, s.nextCycle_outData, s.nextCycle_accepted,
      s.nextCycle_delivered⟩

/-- Settles O27: a full register with a ready consumer delivers and is ready, but no beat is offered to it. -/
theorem emitOperation : Obligations.EmitOperation := by
  refine fun s => ⟨s.currentInstr_eq_iff .emit, fun h => ?_, exec_eq .emit s⟩
  obtain ⟨hrst, hov, hvalid, hready⟩ := (s.currentInstr_eq_iff .emit).mp h
  simp [s.ports_eq, hrst, hov, hvalid, hready]

/-- Settles O28: both beats fire; the delivery reads the register before the load writes it. -/
theorem passOperation : Obligations.PassOperation := by
  refine fun s beat => ⟨s.currentInstr_eq_iff (.pass beat), fun h => ?_, exec_eq (.pass beat) s⟩
  obtain ⟨hrst, hov, hvalid, hready, -⟩ := (s.currentInstr_eq_iff (.pass beat)).mp h
  simp [s.ports_eq, hrst, hov, hvalid, hready]

end Sys2Proof.Machine

/-! ### The one next-state function (`41_cycle_operations.md` R107) -/

namespace Sys2Proof.Machine

/-- Settles O31: in each of the six cases of a step, the signals that select it choose the branch of the combined function
with the same register and the same delivered beat. -/
theorem stepIsTheCombinedFunction : Obligations.StepIsTheCombinedFunction := by
  intro s
  obtain ⟨t, ht⟩ : ∃ t, step s = .next t := ⟨_, step_eq s⟩
  refine ⟨t, ht, ?_⟩
  rcases step_cases s t ht with ⟨hrst, rfl⟩ | ⟨hrst, hov, hvalid, rfl⟩ | ⟨hrst, hov, hvalid, rfl⟩ |
    ⟨hrst, hov, hready, rfl⟩ | ⟨hrst, hov, hready, hvalid, rfl⟩ | ⟨hrst, hov, hready, hvalid, rfl⟩
  · simp [combinedEdge, State.takenBeat, s.ports_eq, hrst]
  · simp [combinedEdge, State.takenBeat, s.ports_eq, hrst, hov, hvalid]
  · simp [combinedEdge, State.takenBeat, s.ports_eq, hrst, hov, hvalid, State.offeredBeat, InBeat.ofWord]
  · simp [combinedEdge, State.takenBeat, s.ports_eq, hrst, hov, hready]
  · simp [combinedEdge, State.takenBeat, s.ports_eq, hrst, hov, hready, hvalid]
  · simp [combinedEdge, State.takenBeat, s.ports_eq, hrst, hov, hready, hvalid, State.offeredBeat, InBeat.ofWord]

end Sys2Proof.Machine

/-! ### `in_data` without a fire (`41_cycle_operations.md` R111) -/

namespace Sys2Proof.Machine

/-- Where the control vector selects an operation without an operand, `in_data` does not matter to the decoder (R111). -/
theorem decode_of_no_operand (c : Ctl) (d d' : InWord) (h : (decode c d).operand = none) : decode c d' = decode c d := by
  unfold decode at h ⊢
  split at h <;> simp_all [Instr.operand]

/-- No operation reads or writes the environment's list. -/
theorem exec_of_any_stimulus (i : Instr) (s : State) :
    ∃ t : State, ∀ cs, exec i { s with stimulus := cs } = .next { t with stimulus := cs } := by
  cases i with
  | reset => exact ⟨s.discard, fun _ => rfl⟩
  | idle => exact ⟨s, fun _ => rfl⟩
  | accept beat => exact ⟨s.load beat, fun _ => rfl⟩
  | stall => exact ⟨s, fun _ => rfl⟩
  | emit => exact ⟨s.deliver, fun _ => rfl⟩
  | pass beat => exact ⟨s.deliver.load beat, fun _ => rfl⟩

/-- The current cycle's drives are read by the selection alone: other drives that select the same operation, operand
included, make the same step. -/
theorem step_of_same_instr (s : State) (c c' : CycleInputs) (rest : List CycleInputs) (hlist : s.stimulus = c :: rest)
    (hinstr : { s with stimulus := c' :: rest }.currentInstr = s.currentInstr) :
    step { s with stimulus := c' :: rest } = step s := by
  obtain ⟨t, ht⟩ := exec_of_any_stimulus s.currentInstr s
  have hnew := ht (c' :: rest)
  rw [← hinstr] at hnew
  rw [step_of_exec _ _ hnew, step_of_exec s _ (ht s.stimulus), hlist]
  rfl

/-- Settles O35: an operation that is neither ACCEPT nor PASS has no operand, so any `in_data` selects it. -/
theorem inDataIsIgnoredWithoutAFire : Obligations.InDataIsIgnoredWithoutAFire := by
  intro s c rest w hlist hno
  have hoperand : s.currentInstr.operand = none := by
    cases hi : s.currentInstr with
    | accept beat => exact absurd hi (hno beat).1
    | pass beat => exact absurd hi (hno beat).2
    | reset | idle | stall | emit => rfl
  have hctl : { s with stimulus := { c with inData := w } :: rest }.ctl = s.ctl := by
    simp [State.ctl, State.inputs, hlist]
  refine step_of_same_instr s c _ rest hlist ?_
  rw [State.currentInstr, hctl]
  exact decode_of_no_operand s.ctl s.inputs.inData w hoperand

end Sys2Proof.Machine

/-! ### The stream contract along a run (`42_stream_and_frame.md` R120, R121) -/

namespace Sys2Proof.Machine

@[simp] theorem State.load_held (beat : InBeat) (s : State) : (s.load beat).held = [beatImage s.tiePolicy beat] := rfl
@[simp] theorem State.deliver_held (s : State) : s.deliver.held = [] := rfl
@[simp] theorem State.nextCycle_held (s : State) : s.nextCycle.held = s.held := by simp [State.held]

/-- An empty register holds no beat (R24). -/
theorem State.held_of_empty (s : State) (hov : s.ov = false) : s.held = [] := by simp [State.held, hov]

/-- A full register holds the beat of `out_data` (R24). -/
theorem State.held_of_full (s : State) (hov : s.ov = true) : s.held = [s.outData] := by simp [State.held, hov]

/-- The register holds as many beats as `ov` says (R24). -/
theorem State.held_length (s : State) : s.held.length = s.ov.toNat := by cases hov : s.ov <;> simp [State.held, hov]

/-- The clock does not touch the contract. -/
theorem State.Inv.nextCycle {s : State} (h : s.Inv) : s.nextCycle.Inv := by simpa [State.Inv] using h

/-- Empty lists meet the contract, with an empty register (R162). -/
theorem State.inv_discard (s : State) : s.discard.Inv := rfl

/-- A delivery moves the held beat to the end of `Out` (R105). -/
theorem State.Inv.deliver {s : State} (h : s.Inv) (hov : s.ov = true) : s.deliver.Inv := by
  simpa [State.Inv, s.held_of_full hov] using h

/-- A load into an empty register adds a beat to `In` and its image to what is held (R103). -/
theorem State.Inv.load {s : State} (h : s.Inv) (hov : s.ov = false) (beat : InBeat) : (s.load beat).Inv := by
  have hdrained : s.delivered = s.accepted.map (beatImage s.tiePolicy) := by
    simpa [State.Inv, s.held_of_empty hov] using h
  simp [State.Inv, hdrained]

/-- Every step keeps the stream contract: each operation is a sequence of the transfers that keep it. -/
theorem State.Inv.step {s t : State} (h : s.Inv) (hstep : Machine.step s = .next t) : t.Inv := by
  rcases step_cases s t hstep with ⟨-, rfl⟩ | ⟨-, -, -, rfl⟩ | ⟨-, hov, -, rfl⟩ | ⟨-, -, -, rfl⟩ |
    ⟨-, hov, -, -, rfl⟩ | ⟨-, hov, -, -, rfl⟩
  · exact s.inv_discard.nextCycle
  · exact h.nextCycle
  · exact (h.load hov s.offeredBeat).nextCycle
  · exact h.nextCycle
  · exact (h.deliver hov).nextCycle
  · exact ((h.deliver hov).load s.deliver_ov s.offeredBeat).nextCycle

/-- Every state of every run from reset meets the stream contract. -/
theorem Reachable.inv {s : State} (h : Reachable s) : s.Inv :=
  reachable_induction State.Inv (fun _ _ _ _ _ => rfl) (fun _ _ => State.Inv.step) s h

/-- Under the contract, `Out` is an initial part of `map F In` (R120). -/
theorem State.Inv.delivered_prefix {s : State} (h : s.Inv) : s.delivered <+: s.accepted.map (beatImage s.tiePolicy) :=
  ⟨s.held, h⟩

/-- Under the contract, `Out` is behind `In` by what is held (R120). -/
theorem State.Inv.accepted_length {s : State} (h : s.Inv) : s.accepted.length = s.delivered.length + s.ov.toNat := by
  have hlength := congrArg List.length h
  rw [List.length_append, List.length_map, s.held_length] at hlength
  exact hlength.symm

/-- Settles O47: the contract holds in every reachable state, and with a full register it ends in the held value. -/
theorem reachableStatesMeetTheStreamContract : Obligations.ReachableStatesMeetTheStreamContract := by
  refine fun s hs => ⟨hs.inv.delivered_prefix, hs.inv.accepted_length, fun hov => ?_⟩
  have himage : s.accepted.map (beatImage s.tiePolicy) = s.delivered ++ [s.outData] := by
    rw [← s.held_of_full hov]; exact hs.inv.symm
  rw [← List.getLast?_map, himage]
  exact ⟨List.getLast?_concat .., List.getElem?_concat_length ..⟩

end Sys2Proof.Machine

/-! ### A raster and its beats (`42_stream_and_frame.md` R124) -/

namespace Sys2Proof

/-- What a well-formed raster is: not empty in either direction, and every row of the raster's width (R124). -/
theorem Raster.wf_iff (f : Raster) :
    f.wf = true ↔ 1 ≤ f.width ∧ 1 ≤ f.rows.length ∧ ∀ row ∈ f.rows, row.length = f.width := by
  simp [Raster.wf, and_assoc]

end Sys2Proof

namespace Sys2Proof.Machine

/-- Where every element unfolds into `n` elements, the index `j * n + x` is the `x`-th of the `j`-th. -/
theorem getElem?_flatMap_of_length {α β : Type} (g : α → List β) (n x : Nat) (hx : x < n) (l : List α) (j : Nat)
    (hl : ∀ a ∈ l, (g a).length = n) : (l.flatMap g)[j * n + x]? = l[j]?.bind fun a => (g a)[x]? := by
  induction l generalizing j with
  | nil => simp
  | cons a l ih =>
    obtain ⟨ha, hl⟩ := List.forall_mem_cons.mp hl
    rw [List.flatMap_cons]
    cases j with
    | zero => rw [List.getElem?_append_left (by omega)]; simp
    | succ j =>
      have hindex : (j + 1) * n + x - (g a).length = j * n + x := by rw [ha, Nat.succ_mul]; omega
      rw [List.getElem?_append_right (by rw [ha, Nat.succ_mul]; omega), hindex, ih j hl, List.getElem?_cons_succ]

@[simp] theorem rowBeats_length (width y : Nat) (row : List Pixel) : (rowBeats width y row).length = row.length := by
  simp [rowBeats]

/-- Every row of a well-formed raster is presented as `W` beats (R124). -/
theorem rowBeats_length_of_mem (f : Raster) (hf : f.wf = true) (p : List Pixel × Nat) (hp : p ∈ f.rows.zipIdx) :
    (rowBeats f.width p.2 p.1).length = f.width := by
  obtain ⟨-, -, hrows⟩ := f.wf_iff.mp hf
  rw [rowBeats_length]
  exact hrows p.1 (List.fst_mem_of_mem_zipIdx hp)

/-- A raster is presented as `W * H` beats (R124). -/
theorem rasterBeats_length (f : Raster) (hf : f.wf = true) : (rasterBeats f).length = f.width * f.rows.length := by
  have hlengths : f.rows.zipIdx.map (fun p => (rowBeats f.width p.2 p.1).length) =
      List.replicate f.rows.zipIdx.length f.width :=
    List.map_eq_replicate_iff.mpr (rowBeats_length_of_mem f hf)
  rw [rasterBeats, List.length_flatMap, hlengths, List.sum_replicate, List.length_zipIdx, smul_eq_mul, Nat.mul_comm]

/-- The beat at index `k` of a frame of `w` columns: a pixel with the marks that R124 gives the index. -/
def frameBeat (w k : Nat) (px : Pixel) : InBeat := ⟨decide (k = 0), decide (k % w = w - 1), px.r, px.g, px.b⟩

/-- The beats of row `y`: the pixel at column `x` with the marks of index `y * W + x` (R124). -/
theorem rowBeats_getElem? (width y x : Nat) (hx : x < width) (row : List Pixel) :
    (rowBeats width y row)[x]? = row[x]?.map (frameBeat width (y * width + x)) := by
  have hsof : (x == 0 && y == 0) = decide (y * width + x = 0) := by
    have hw : width ≠ 0 := by omega
    rw [Bool.eq_iff_iff]
    simp [hw, and_comm]
  have heol : (x == width - 1) = decide ((y * width + x) % width = width - 1) := by
    rw [Nat.mul_add_mod', Nat.mod_eq_of_lt hx]; rfl
  rw [rowBeats, List.getElem?_map, List.getElem?_zipIdx, Option.map_map]
  simp only [Function.comp_def, Nat.zero_add, hsof, heol]
  rfl

/-- The beats of a raster: the pixel at column `x` of row `y` with the marks of index `y * W + x` (R124). -/
theorem rasterBeats_getElem? (f : Raster) (hf : f.wf = true) (x y : Nat) (hx : x < f.width) :
    (rasterBeats f)[y * f.width + x]? = (pixelAt f x y).map (frameBeat f.width (y * f.width + x)) := by
  refine (getElem?_flatMap_of_length (fun p : List Pixel × Nat => rowBeats f.width p.2 p.1) f.width x hx
    f.rows.zipIdx y (rowBeats_length_of_mem f hf)).trans ?_
  rw [List.getElem?_zipIdx, pixelAt]
  cases f.rows[y]? with
  | none => rfl
  | some row => simp [rowBeats_getElem? f.width y x hx]

/-- Every beat of a raster is a pixel with the marks of its index (R124). -/
theorem exists_frameBeat_of_getElem? (f : Raster) (hf : f.wf = true) (k : Nat) (beat : InBeat)
    (hk : (rasterBeats f)[k]? = some beat) : ∃ px, beat = frameBeat f.width k px := by
  obtain ⟨hw, -, -⟩ := f.wf_iff.mp hf
  have hbeat := rasterBeats_getElem? f hf (k % f.width) (k / f.width) (Nat.mod_lt k hw)
  rw [Nat.div_add_mod', hk] at hbeat
  obtain ⟨px, -, hpx⟩ := Option.map_eq_some_iff.mp hbeat.symm
  exact ⟨px, hpx.symm⟩

/-- A pixel of a well-formed raster stands left of the width (R124). -/
theorem lt_width_of_pixelAt (f : Raster) (hf : f.wf = true) (x y : Nat) (px : Pixel) (hpx : pixelAt f x y = some px) :
    x < f.width := by
  obtain ⟨-, -, hrows⟩ := f.wf_iff.mp hf
  obtain ⟨row, hrow, hx⟩ := Option.bind_eq_some_iff.mp hpx
  rw [← hrows row (List.mem_of_getElem? hrow)]
  exact (List.getElem?_eq_some_iff.mp hx).1

end Sys2Proof.Machine

/-! ### The Luminance Plane of a frame (`42_stream_and_frame.md` R125) -/

namespace Sys2Proof.Machine

/-- The Luminance Plane has `H` rows of `W` cells (R125). -/
theorem luminancePlane_dimensions (p : TiePolicy) (f : Raster) (hf : f.wf = true) :
    (luminancePlane p f).map List.length = List.replicate f.rows.length f.width := by
  obtain ⟨-, -, hrows⟩ := f.wf_iff.mp hf
  rw [luminancePlane, List.map_map, List.map_eq_replicate_iff]
  simpa using hrows

/-- A cell of the Luminance Plane is LUMA of the pixel at its place (R125). -/
theorem luminancePlane_cell (p : TiePolicy) (f : Raster) (x y : Nat) :
    ((luminancePlane p f)[y]?.bind fun row => row[x]?) = (pixelAt f x y).map fun px => luma p px.r px.g px.b := by
  rw [luminancePlane, List.getElem?_map, pixelAt]
  cases f.rows[y]? with
  | none => rfl
  | some row => simp

/-- Under the contract, a beat of `Out` is the image of the beat of `In` at the same index (R120). -/
theorem State.Inv.delivered_getElem? {s : State} (h : s.Inv) (k : Nat) (hk : k < s.delivered.length) :
    s.delivered[k]? = s.accepted[k]?.map (beatImage s.tiePolicy) := by
  rw [← List.getElem?_map, ← h, List.getElem?_append_left hk]

/-- Settles O51: the output beat at the cell's index is the image of the cell's pixel with the marks of that index. -/
theorem frameDeliversTheLuminancePlane : Obligations.FrameDeliversTheLuminancePlane := by
  intro s f before after hinv hf hIn
  refine ⟨luminancePlane_dimensions s.tiePolicy f hf, ?_, ?_⟩
  · rintro rfl hov
    have hlength := hinv.accepted_length
    rw [hIn, hov] at hlength
    simpa [rasterBeats_length f hf] using hlength.symm
  · intro x y v hcell hreached
    rw [luminancePlane_cell] at hcell
    obtain ⟨px, hpx, rfl⟩ := Option.map_eq_some_iff.mp hcell
    have hx := lt_width_of_pixelAt f hf x y px hpx
    have hbeat : (rasterBeats f)[y * f.width + x]? = some (frameBeat f.width (y * f.width + x) px) := by
      rw [rasterBeats_getElem? f hf x y hx, hpx]; rfl
    obtain ⟨hk, -⟩ := List.getElem?_eq_some_iff.mp hbeat
    rw [hinv.delivered_getElem? _ hreached, hIn, List.append_assoc, List.getElem?_append_right (by omega),
      Nat.add_sub_cancel_left, List.getElem?_append_left hk, hbeat]
    simp [frameBeat, beatImage, Nat.mod_eq_of_lt hx]

end Sys2Proof.Machine

/-! ### The end of a frame (`42_stream_and_frame.md` R131) -/

namespace Sys2Proof.Machine

/-- The beats of a raster are a beat with `sof = 1` and beats without it (R124). -/
theorem rasterBeats_eq_cons (f : Raster) (hf : f.wf = true) :
    ∃ first tail, rasterBeats f = first :: tail ∧ first.sof = true ∧ ∀ beat ∈ tail, beat.sof = false := by
  obtain ⟨hw, hh, -⟩ := f.wf_iff.mp hf
  have hpos : 0 < (rasterBeats f).length := by rw [rasterBeats_length f hf]; exact Nat.mul_pos hw hh
  obtain ⟨first, tail, hbeats⟩ := List.exists_cons_of_length_pos hpos
  refine ⟨first, tail, hbeats, ?_, fun beat hbeat => ?_⟩
  · obtain ⟨px, rfl⟩ := exists_frameBeat_of_getElem? f hf 0 first (by rw [hbeats]; rfl)
    rfl
  · obtain ⟨k, hk⟩ := List.mem_iff_getElem?.mp hbeat
    obtain ⟨px, rfl⟩ := exists_frameBeat_of_getElem? f hf (k + 1) beat (by rw [hbeats]; exact hk)
    rfl

/-- Of an initial part of a list whose first elements `ys` all satisfy `p`, the elements up to the first that does not
reach the length of `ys` exactly when the whole part does. -/
theorem length_le_takeWhile_iff {α : Type} (p : α → Bool) (ys zs rest : List α) (hys : ∀ y ∈ ys, p y = true)
    (hrest : rest <+: ys ++ zs) : ys.length ≤ (rest.takeWhile p).length ↔ ys.length ≤ rest.length := by
  constructor
  · exact fun h => h.trans (List.takeWhile_prefix p).length_le
  · intro h
    obtain ⟨more, rfl⟩ := List.prefix_of_prefix_length_le (List.prefix_append ys zs) hrest h
    rw [List.takeWhile_append_of_pos hys, List.length_append]
    omega

/-- Of delivered beats that are an initial part of the beats `xs`, a frame from its first beat `y` through `ys`, and any
beats after it, the frame of `w` columns and `h` rows is complete exactly when they reach its end (R131). -/
theorem frameComplete_iff (w h : Nat) (xs : List OutWord) (y : OutWord) (ys zs out : List OutWord)
    (hsize : w * h = ys.length + 1) (hy : startsFrame y = true) (hys : ∀ v ∈ ys, startsFrame v = false)
    (hout : out <+: xs ++ y :: (ys ++ zs)) :
    frameComplete w h (xs.countP startsFrame) out = true ↔ xs.length + w * h ≤ out.length := by
  rcases Nat.lt_or_ge xs.length out.length with hbegun | hbefore
  · have hfirst : xs ++ [y] <+: xs ++ y :: (ys ++ zs) := by simp
    obtain ⟨rest, rfl⟩ := List.prefix_of_prefix_length_le hfirst hout (by simpa using hbegun)
    have hrest : rest <+: ys ++ zs := by simpa using hout
    have hreach := length_le_takeWhile_iff (fun v => !startsFrame v) ys zs rest (by simpa using hys) hrest
    rw [List.append_assoc, List.singleton_append, frameComplete, frameOf_append_cons xs y rest hy, hsize]
    simp only [List.isEmpty_cons, Bool.not_false, Bool.true_and, decide_eq_true_eq, List.length_cons,
      List.length_append]
    omega
  · have hpart : out <+: xs := List.prefix_of_prefix_length_le hout (List.prefix_append xs _) hbefore
    have hnone := frameOf_eq_nil _ out (hpart.sublist.countP_le (p := startsFrame))
    simp only [frameComplete, hnone, List.isEmpty_nil, Bool.not_true, Bool.false_and, Bool.false_eq_true, false_iff]
    omega

/-- The images of beats start as many frames as the beats do (R120). -/
theorem countP_startsFrame_map_beatImage (p : TiePolicy) (beats : List InBeat) :
    (beats.map (beatImage p)).countP startsFrame = beats.countP InBeat.sof := by
  rw [List.countP_map]
  exact List.countP_congr (by simp)

/-- Settles O56: `Out` is an initial part of the images of `In`, in which the frame's first beat alone starts a frame. -/
theorem frameIsCompleteAtItsLastBeat : Obligations.FrameIsCompleteAtItsLastBeat := by
  refine ⟨fun s f before after hinv hf hIn => ?_, fun s hrst => ?_⟩
  · obtain ⟨first, tail, hbeats, hfirst, htail⟩ := rasterBeats_eq_cons f hf
    have hsize : f.width * f.rows.length = (tail.map (beatImage s.tiePolicy)).length + 1 := by
      rw [← rasterBeats_length f hf, hbeats, List.length_cons, List.length_map]
    have hout := hinv.delivered_prefix
    rw [hIn, hbeats, List.append_assoc, List.cons_append, List.map_append, List.map_cons, List.map_append] at hout
    rw [← countP_startsFrame_map_beatImage s.tiePolicy before,
      frameComplete_iff _ _ _ _ _ _ _ hsize (by simpa using hfirst) (by simpa using htail) hout, List.length_map]
  · simp [State.seenDrained, s.ports_eq, hrst]

end Sys2Proof.Machine

/-! ### Reset (`70_reset_and_hazards.md` R162, R163) -/

namespace Sys2Proof.Machine

/-- A cycle with `rst = 1` discards, whatever the other signals are, and the next cycle begins (R101). -/
theorem step_of_reset (s : State) (hrst : s.inputs.rst = true) : step s = .next s.discard.nextCycle := by
  simp [step_eq, hrst]

/-- A listed reset cycle is a discard that takes the cycle off the list (R101, R16). -/
theorem step_of_listed_reset (s : State) (c : CycleInputs) (rest : List CycleInputs) (hlist : s.stimulus = c :: rest)
    (hrst : c.rst = true) : step s = .next { s.discard with stimulus := rest } := by
  have hnext : s.discard.nextCycle = { s.discard with stimulus := rest } := by simp [State.nextCycle, hlist]
  rw [← hnext]
  exact step_of_reset s (by rwa [s.inputs_of_stimulus c rest hlist])

/-- Settles O42: the step discards, which leaves the data fields and empty lists, and the clock touches none of them. -/
theorem resetEdgeStartsOver : Obligations.ResetEdgeStartsOver :=
  fun s hrst => ⟨s.discard.nextCycle, step_of_reset s hrst, s.discard.nextCycle_ov, s.discard.nextCycle_accepted,
    s.discard.nextCycle_delivered, s.discard.nextCycle_oy, s.discard.nextCycle_osof, s.discard.nextCycle_oeol,
    s.inv_discard.nextCycle⟩

/-- Settles O43, by induction on the reset cycles after the first: a discard of a discarded state changes nothing but the
list of cycles. -/
theorem manyResetCyclesAreOne : Obligations.ManyResetCyclesAreOne := by
  intro c cs rest s hlist hrst
  induction cs generalizing c s with
  | nil =>
    obtain ⟨hc, -⟩ := List.forall_mem_cons.mp hrst
    exact run_succ 0 s _ (step_of_listed_reset s c rest hlist hc)
  | cons d ds ih =>
    obtain ⟨hc, hds⟩ := List.forall_mem_cons.mp hrst
    have hfirst := step_of_listed_reset s c (d :: ds ++ rest) hlist hc
    exact (run_succ (ds.length + 1) s _ hfirst).trans (ih d { s.discard with stimulus := d :: ds ++ rest } rfl hds)

end Sys2Proof.Machine

/-! ### The instruction word and its two round trips (`30_encoding.md` sections 1 to 3) -/

namespace Sys2Proof

/-- The bits of `State.ctl` are the signals of the cycle (R66). -/
theorem Machine.State.ctl_bits (s : Machine.State) : s.ctl.getLsbD 3 = s.inputs.rst ∧ s.ctl.getLsbD 2 = s.ov ∧
    s.ctl.getLsbD 1 = s.inputs.inValid ∧ s.ctl.getLsbD 0 = s.inputs.outReady :=
  ⟨ctlWord_rst .., ctlWord_ov .., ctlWord_inValid .., ctlWord_outReady ..⟩

/-- Settles O11: the control vector is assembled from these four signals. -/
theorem controlVectorLayout : Obligations.ControlVectorLayout := Machine.State.ctl_bits

/-- The control vector of an operation's word is selected by the operation's row, whatever the don't-care bits (R67). -/
theorem row_selects_encode (i : Instr) (dontCare : OpWord) :
    i.row.selects (OpWord.ctl (encode i dontCare)) = true := by
  cases i with
  | reset => exact Laws.EncodesItsRow.reset dontCare
  | idle => exact Laws.EncodesItsRow.idle dontCare
  | accept beat => exact Laws.EncodesItsRow.accept beat dontCare
  | stall => exact Laws.EncodesItsRow.stall dontCare
  | emit => exact Laws.EncodesItsRow.emit dontCare
  | pass beat => exact Laws.EncodesItsRow.pass beat dontCare

/-- The operand of an operation stands on `in_data` of its word. -/
theorem operand_of_encode (i : Instr) (dontCare : OpWord) :
    ∀ beat ∈ i.operand, beat = InBeat.ofWord (OpWord.inData (encode i dontCare)) := by
  cases i <;> simp [Instr.operand, encode]

/-- Decoding an operation's word gives the operation back. -/
@[simp] theorem decodeWord_encode (i : Instr) (dontCare : OpWord) : decodeWord (encode i dontCare) = i :=
  (decode_eq_iff_selects _ _ i (operand_of_encode i dontCare)).mpr (row_selects_encode i dontCare)

/-- Settles O14: the word's control vector selects the operation's row, and the operand is its `in_data`. -/
theorem decodeOfEncodeIsTheOperation : Obligations.DecodeOfEncodeIsTheOperation :=
  fun i dontCare _ => decodeWord_encode i dontCare

/-- A control vector that a row selects is the row's pattern with the vector's own don't-care bits. -/
theorem pattern_or_dontCare_of_selects : ∀ c : Ctl, ∀ row ∈ opTable, row.selects c = true →
    row.pattern ||| (c &&& ~~~row.mask) = c := by
  decide

/-- A word is made of its two parts. -/
@[simp] theorem OpWord.make_parts (w : OpWord) : OpWord.make (OpWord.inData w) (OpWord.ctl w) = w := by
  apply BitVec.eq_of_getLsbD_eq
  intro i hi
  rw [OpWord.make_bit]
  split_ifs with hctl
  · simp [OpWord.ctl, hctl]
  · simp [OpWord.inData, show i - 4 < 26 by omega, show 4 + (i - 4) = i by omega]

/-- Settles O15: the decoder's row selects the control vector, and its operand, if any, is the word's own `in_data`. -/
theorem encodeOfDecodeIsTheWord : Obligations.EncodeOfDecodeIsTheWord := by
  intro w
  have hselects : (decodeWord w).row.selects (OpWord.ctl w) = true :=
    (decode_eq_iff_selects _ _ _ (decode_operand _ _)).mp rfl
  have hctl := pattern_or_dontCare_of_selects _ _ (decodeWord w).row_in_map.2 hselects
  unfold encode
  rw [hctl]
  cases hoperand : (decodeWord w).operand with
  | none => exact OpWord.make_parts w
  | some beat =>
    rw [decode_operand _ _ beat hoperand]
    simp only [InBeat.toWord_ofWord, OpWord.make_parts]

/-- Settles O16, word by word. -/
theorem tableWordsDecode : Obligations.TableWordsDecode := by
  unfold Obligations.TableWordsDecode
  decide

end Sys2Proof

/-! ### The fetched word is the operation of the next step (`30_encoding.md` section 3) -/

namespace Sys2Proof.Machine

/-- After the fetch of a 30-bit word, the current operation is the one that the word stands for. -/
@[simp] theorem State.withFetchWord_currentInstr (s : State) (w : OpWord) :
    (s.withFetchWord 30 w.toNat).currentInstr = decodeWord w := by
  have hword : BitVec.ofNat 30 (w.toNat % 2 ^ 30) = w := by
    rw [Nat.mod_eq_of_lt w.isLt]; exact BitVec.ofNat_toNat 30 w
  have hfetch : s.withFetchWord 30 w.toNat =
      { s with ov := (OpWord.ctl w).getLsbD 2, stimulus := cycleOfOpWord w :: s.stimulus } := by
    unfold State.withFetchWord; rw [hword]
  rw [hfetch]
  exact congrArg (decode · (OpWord.inData w)) (ctlWord_of_bits (OpWord.ctl w))

/-- The fetch lists one cycle, the word's, before those of the environment. -/
theorem State.withFetchWord_stimulus_tail (s : State) (nbits w : Nat) :
    (s.withFetchWord nbits w).stimulus.tail = s.stimulus := rfl

/-- Every operation answers a state, and none writes the tie policy or the environment's drives. -/
theorem exec_frame (i : Instr) (s : State) :
    ∃ t, exec i s = .next t ∧ t.tiePolicy = s.tiePolicy ∧ t.stimulus = s.stimulus ∧ t.draws = s.draws := by
  cases i <;> exact ⟨_, rfl, rfl, rfl, rfl⟩

/-- Settles O17: the fetched word decodes to the operation, which leaves the list of cycles to the clock. -/
theorem fetchedWordIsTheNextOperation : Obligations.FetchedWordIsTheNextOperation := by
  intro s i dontCare _
  have hinstr : (s.withFetchWord 30 (encode i dontCare).toNat).currentInstr = i := by
    rw [State.withFetchWord_currentInstr, decodeWord_encode]
  obtain ⟨t, ht, -, hstimulus, -⟩ := exec_frame i (s.withFetchWord 30 (encode i dontCare).toNat)
  refine ⟨hinstr, t, ht, step_of_exec _ t (by rwa [hinstr]), ?_⟩
  rw [State.nextCycle_stimulus, hstimulus, State.withFetchWord_stimulus_tail]

/-- Settles O30: no operation is refused, and neither an operation nor the clock writes the tie policy. -/
theorem everyStepAnswersNext : Obligations.EveryStepAnswersNext := by
  refine ⟨fun s => ?_, exec_frame⟩
  obtain ⟨t, ht, hpolicy, -⟩ := exec_frame s.currentInstr s
  exact ⟨t.nextCycle, step_of_exec s t ht, t.nextCycle_tiePolicy.trans hpolicy⟩

/-- Where cycles are listed, the clock takes the first off the list and does nothing else (R16). -/
theorem State.nextCycle_of_listed (s : State) (c : CycleInputs) (rest : List CycleInputs) (hlist : s.stimulus = c :: rest) :
    s.nextCycle = { s with stimulus := rest } := by
  simp [State.nextCycle, hlist]

/-- Settles O29: the step is its definition, and the environment's list, where it is not empty, drives the cycle. -/
theorem stepRunsTheDecodedOperation : Obligations.StepRunsTheDecodedOperation := by
  refine ⟨step_of_exec, fun s c rest hlist => ⟨s.inputs_of_stimulus c rest hlist, s.nextCycle_of_listed c rest hlist⟩,
    fun s hlist => ⟨?_, ?_⟩⟩
  · simp [State.inputs, hlist]
  · simp [State.nextCycle, hlist]

/-- Settles O45: the invariant of the stream, kept by the transfers that every operation is made of. -/
theorem stepKeepsTheStreamContract : Obligations.StepKeepsTheStreamContract := fun _ _ => State.Inv.step

end Sys2Proof.Machine

/-! ### The fires at the ports (`41_cycle_operations.md` R100) -/

namespace Sys2Proof.Machine

/-- An input fires without a reset, with a beat offered and room for it (R100). -/
theorem State.inFire_iff (s : State) :
    s.inFire = true ↔ s.inputs.rst = false ∧ s.inputs.inValid = true ∧ (s.ov = false ∨ s.inputs.outReady = true) := by
  simp [s.ports_eq, and_left_comm]

/-- An output fires without a reset, with a value held and a ready consumer (R100). -/
theorem State.outFire_iff (s : State) :
    s.outFire = true ↔ s.inputs.rst = false ∧ s.ov = true ∧ s.inputs.outReady = true := by
  simp [s.ports_eq, and_assoc]

end Sys2Proof.Machine

/-! ### What a host cannot see (`10_state.md` R33, R36) -/

namespace Sys2Proof.Machine

/-- Two states alike to a host are in cycles with the same inputs. -/
theorem State.SameToHost.inputs {s t : State} (h : s.SameToHost t) : s.inputs = t.inputs := by
  obtain ⟨-, -, -, hstimulus, hdraws, -, -⟩ := h
  exact s.inputs_congr t hstimulus hdraws

/-- A load writes the fields in which the two states may differ, with one image for both. -/
theorem State.SameToHost.load {s t : State} (h : s.SameToHost t) (beat : InBeat) : (s.load beat).SameToHost (t.load beat) := by
  obtain ⟨-, -, hpolicy, hstimulus, hdraws, haccepted, hdelivered⟩ := h
  simp [State.SameToHost, hpolicy, hstimulus, hdraws, haccepted, hdelivered]

/-- A full register is delivered alike. -/
theorem State.SameToHost.deliver {s t : State} (h : s.SameToHost t) (hov : s.ov = true) : s.deliver.SameToHost t.deliver := by
  obtain ⟨-, hdata, hpolicy, hstimulus, hdraws, haccepted, hdelivered⟩ := h
  simp [State.SameToHost, hdata hov, hpolicy, hstimulus, hdraws, haccepted, hdelivered]

/-- A discard empties both registers and both pairs of lists. -/
theorem State.SameToHost.discard {s t : State} (h : s.SameToHost t) : s.discard.SameToHost t.discard := by
  obtain ⟨-, -, hpolicy, hstimulus, hdraws, -, -⟩ := h
  simp [State.SameToHost, hpolicy, hstimulus, hdraws]

/-- The clock moves the environment alone, which is the same in both states. -/
theorem State.SameToHost.nextCycle {s t : State} (h : s.SameToHost t) : s.nextCycle.SameToHost t.nextCycle := by
  obtain ⟨hov, hdata, hpolicy, hstimulus, hdraws, haccepted, hdelivered⟩ := h
  simpa [State.SameToHost, hov, hpolicy, hstimulus, hdraws, haccepted, hdelivered] using hdata

/-- Two states alike to a host step to two states alike to a host: the same operation runs, and it reads the data fields
of a full register only. -/
theorem State.SameToHost.step {s t s' t' : State} (h : s.SameToHost t) (hs : Machine.step s = .next s')
    (ht : Machine.step t = .next t') : s'.SameToHost t' := by
  have hoffered : t.offeredBeat = s.offeredBeat := by rw [State.offeredBeat, ← h.inputs]; rfl
  have hov : s.ov = t.ov := h.1
  rw [step_eq, ← h.inputs, ← hov, hoffered] at ht
  rw [step_eq] at hs
  cases hs
  cases ht
  apply State.SameToHost.nextCycle
  split_ifs with _ hfull
  · exact h.discard
  · exact (h.deliver hfull).load _
  · exact h.deliver hfull
  · exact h
  · exact h.load _
  · exact h

/-- Settles O48: the ports and the taken beat read `ov` and the inputs, and the data fields of a full register only. -/
theorem unknownFieldsAreNeverSeen : Obligations.UnknownFieldsAreNeverSeen := by
  intro s t s' t' h hs ht
  have hinputs := h.inputs
  have hstep := h.step hs ht
  obtain ⟨hov, hdata, -⟩ := h
  refine ⟨by simp [State.ports_eq, hinputs, hov], by simp [State.ports_eq, hinputs, hov], ?_, hstep⟩
  have hfire : s.outFire = t.outFire := by simp [State.ports_eq, hinputs, hov]
  rw [State.takenBeat, State.takenBeat, ← hfire]
  split_ifs with hout
  · obtain ⟨-, hfull, -⟩ := s.outFire_iff.mp hout
    rw [hdata hfull]
  · rfl

end Sys2Proof.Machine

/-! ### The transaction-level model (`42_stream_and_frame.md` R130) -/

namespace Sys2Proof.Machine

@[simp] theorem State.nextCycle_asTlm (s : State) : s.nextCycle.asTlm = s.asTlm := by simp [State.asTlm]

/-- A delivery from a full register takes the head of the queue. -/
theorem State.deliverHead_asTlm (s : State) (hov : s.ov = true) : s.asTlm.deliverHead = some s.deliver.asTlm := by
  simp [State.asTlm, Tlm.deliverHead, hov]

/-- A load into an empty register is an acceptance into a queue with room. -/
theorem State.acceptBeat_asTlm (s : State) (hov : s.ov = false) (beat : InBeat) :
    s.asTlm.acceptBeat beat = some (s.load beat).asTlm := by
  simp [State.asTlm, Tlm.acceptBeat, hov, Config.depth]

/-- Settles O53: each of the six operations is the reset, the delivery and the acceptance that its ports show. -/
theorem cycleIsATransactionStep : Obligations.CycleIsATransactionStep := by
  intro s t hstep
  rcases step_cases s t hstep with ⟨hrst, rfl⟩ | ⟨hrst, hov, hvalid, rfl⟩ | ⟨hrst, hov, hvalid, rfl⟩ |
    ⟨hrst, hov, hready, rfl⟩ | ⟨hrst, hov, hready, hvalid, rfl⟩ | ⟨hrst, hov, hready, hvalid, rfl⟩
  · simp only [Tlm.step, State.tlmMove, hrst, if_true, State.nextCycle_asTlm]
    rfl
  · simp [Tlm.step, State.tlmMove, s.ports_eq, hrst, hov, hvalid]
  · simp [Tlm.step, State.tlmMove, s.ports_eq, hrst, hov, hvalid, s.acceptBeat_asTlm]
  · simp [Tlm.step, State.tlmMove, s.ports_eq, hrst, hov, hready]
  · simp [Tlm.step, State.tlmMove, s.ports_eq, hrst, hov, hready, hvalid, s.deliverHead_asTlm]
  · simp [Tlm.step, State.tlmMove, s.ports_eq, hrst, hov, hready, hvalid, s.deliverHead_asTlm,
      s.deliver.acceptBeat_asTlm s.deliver_ov]

end Sys2Proof.Machine

/-! ### The transfers of a cycle by the fires at the ports (`41_cycle_operations.md` R100, R120) -/

namespace Sys2Proof.Machine

/-- The state that the cycle's delivery leaves, where there is one. -/
def State.afterDelivery (s : State) : State := if s.outFire then s.deliver else s

/-- The state that the cycle's delivery and then its acceptance leave. -/
def State.afterTransfers (s : State) : State :=
  if s.inFire then s.afterDelivery.load s.offeredBeat else s.afterDelivery

@[simp] theorem State.afterDelivery_accepted (s : State) : s.afterDelivery.accepted = s.accepted := by
  unfold State.afterDelivery; split <;> rfl
@[simp] theorem State.afterDelivery_tiePolicy (s : State) : s.afterDelivery.tiePolicy = s.tiePolicy := by
  unfold State.afterDelivery; split <;> rfl
@[simp] theorem State.afterDelivery_stimulus (s : State) : s.afterDelivery.stimulus = s.stimulus := by
  unfold State.afterDelivery; split <;> rfl
@[simp] theorem State.afterDelivery_delivered (s : State) :
    s.afterDelivery.delivered = if s.outFire then s.delivered ++ [s.outData] else s.delivered := by
  unfold State.afterDelivery; split <;> rfl
@[simp] theorem State.afterTransfers_accepted (s : State) :
    s.afterTransfers.accepted = if s.inFire then s.accepted ++ [s.offeredBeat] else s.accepted := by
  unfold State.afterTransfers; split <;> simp
@[simp] theorem State.afterTransfers_delivered (s : State) :
    s.afterTransfers.delivered = if s.outFire then s.delivered ++ [s.outData] else s.delivered := by
  unfold State.afterTransfers; split <;> simp

/-- Without a reset, a step makes the transfers that fire, and the next cycle begins. -/
theorem step_of_no_reset (s : State) (hrst : s.inputs.rst = false) : step s = .next s.afterTransfers.nextCycle := by
  rw [step_eq, hrst]
  cases hov : s.ov with
  | false =>
    have hin : s.inFire = s.inputs.inValid := by simp [s.ports_eq, hrst, hov]
    have hout : s.outFire = false := by simp [s.ports_eq, hov]
    simp [State.afterTransfers, State.afterDelivery, hin, hout]
  | true =>
    have hin : s.inFire = (s.inputs.inValid && s.inputs.outReady) := by simp [s.ports_eq, hrst, hov]
    have hout : s.outFire = s.inputs.outReady := by simp [s.ports_eq, hrst, hov]
    cases hready : s.inputs.outReady <;> simp [State.afterTransfers, State.afterDelivery, hin, hout, hready]

/-- A step in which an input fires loads the offered beat, after the cycle's delivery if there is one. -/
theorem step_of_inFire (s : State) (hfire : s.inFire = true) :
    step s = .next (s.afterDelivery.load s.offeredBeat).nextCycle := by
  obtain ⟨hrst, -, -⟩ := s.inFire_iff.mp hfire
  rw [step_of_no_reset s hrst, State.afterTransfers, if_pos hfire]

/-- Settles O32: a reset discards both lists, and otherwise each list follows its own fire. -/
theorem transferListsFollowTheFires : Obligations.TransferListsFollowTheFires := by
  intro s t hstep
  cases hrst : s.inputs.rst with
  | true =>
    obtain rfl : s.discard.nextCycle = t := by simpa [step_of_reset s hrst] using hstep
    simp
  | false =>
    obtain rfl : s.afterTransfers.nextCycle = t := by simpa [step_of_no_reset s hrst] using hstep
    simp

/-- Settles O34: PASS is selected by the signals under which both fires occur, and it delivers before it loads. -/
theorem resetTakesPrecedence : Obligations.ResetTakesPrecedence := by
  refine fun s => ⟨fun hrst => ?_, ?_, fun hin hout t hstep => ?_⟩
  · exact ⟨by simp [s.ports_eq, hrst], by simp [s.ports_eq, hrst], s.currentInstr_of_selects .reset hrst⟩
  · rw [State.currentInstr_eq_iff, State.inFire_iff, State.outFire_iff, State.Selects]
    constructor
    · rintro ⟨⟨hrst, hvalid, -⟩, -, hov, hready⟩
      exact ⟨hrst, hov, hvalid, hready, rfl⟩
    · rintro ⟨hrst, hov, hvalid, hready, -⟩
      exact ⟨⟨hrst, hvalid, .inr hready⟩, hrst, hov, hready⟩
  · obtain rfl : (s.afterDelivery.load s.offeredBeat).nextCycle = t := by simpa [step_of_inFire s hin] using hstep
    simp [hout]

/-- Settles O37: the load is what the next cycle offers, and the accepting cycle offers what the register holds. -/
theorem acceptedPixelIsOfferedNextCycle : Obligations.AcceptedPixelIsOfferedNextCycle := by
  refine ⟨fun s t hfire hstep => ?_, fun s c rest w hlist => ⟨rfl, ?_⟩⟩
  · obtain rfl : (s.afterDelivery.load s.offeredBeat).nextCycle = t := by simpa [step_of_inFire s hfire] using hstep
    exact ⟨by simp, fun hrst => (State.outValid_iff _).mpr ⟨hrst, by simp⟩⟩
  · simp [State.ports_eq, State.inputs, hlist]

/-- Settles O38: each clause is a fire, or the lack of one, that the lists follow. -/
theorem handshakesMakeProgress : Obligations.HandshakesMakeProgress := by
  intro s hrst
  refine ⟨fun hov hready => ?_, fun hvalid hroom => ?_, fun hwait => ?_⟩ <;>
    refine ⟨_, step_of_no_reset s hrst, ?_⟩
  · simp [s.outFire_iff.mpr ⟨hrst, hov, hready⟩]
  · simp [s.inFire_iff.mpr ⟨hrst, hvalid, hroom⟩]
  · simp [s.outFire_iff, hwait]

/-- Settles O22: a SEND line makes room itself, and a HOLD line meets an empty register or stalls. -/
theorem sendAlwaysFires : Obligations.SendAlwaysFires := by
  refine fun s beat => ⟨fun h => ?_, fun h hov => ?_, fun h hov => ⟨?_, ?_⟩⟩
  · exact s.inFire_iff.mpr (by simp [h, StimLine.drives])
  · exact s.inFire_iff.mpr (by simp [h, StimLine.drives, hov])
  · simp [s.ports_eq, h, StimLine.drives, hov]
  · exact s.currentInstr_of_selects .stall (by simp [State.Selects, h, StimLine.drives, hov])

end Sys2Proof.Machine

/-! ### Drained, and the state after reset (R49, R131, R164) -/

namespace Sys2Proof.Machine

/-- A host sees the block drained in a cycle without a reset in which the register is empty (R49, R131). -/
theorem State.seenDrained_iff (s : State) : s.seenDrained = true ↔ s.inputs.rst = false ∧ s.ov = false := by
  cases hrst : s.inputs.rst <;> simp [State.seenDrained, s.ports_eq, hrst]

/-- Settles O44: an empty register holds nothing back, so that the contract is between `Out` and `In` alone. -/
theorem drainedMeansAllDelivered : Obligations.DrainedMeansAllDelivered := by
  refine fun s => ⟨by simp [State.seenDrained], fun h => ?_, fun hrst hov => s.seenDrained_iff.mpr ⟨hrst, hov⟩⟩
  obtain ⟨-, hov⟩ := s.seenDrained_iff.mp h
  refine ⟨hov, fun hinv => ?_⟩
  simpa [State.Inv, s.held_of_empty hov] using hinv

/-- Settles O46: nothing is accepted, held or delivered, and an empty register is ready unless it is reset. -/
theorem resetStateIsEmptyAndReady : Obligations.ResetStateIsEmptyAndReady := by
  refine ⟨rfl, rfl, rfl, rfl, fun cycles hrst => ?_⟩
  have hov : (State.reset.withProgram cycles).ov = false := rfl
  simp [State.ports_eq, hrst, hov]

end Sys2Proof.Machine

/-! ### Runs with a waiting and with a ready consumer (R104, R122, R150, R175) -/

namespace Sys2Proof.Machine

/-- A run that continues where a first run has ended. -/
theorem run_append (m n : Nat) (s t : State) (h : Host.Core.run Sys2Proof.core m s = .next t) :
    Host.Core.run Sys2Proof.core (m + n) s = Host.Core.run Sys2Proof.core n t := by
  induction m generalizing s with
  | zero =>
    obtain rfl : s = t := Host.Outcome.next.inj h
    rw [Nat.zero_add]
  | succ m ih =>
    obtain ⟨u, hu⟩ : ∃ u, step s = .next u := ⟨_, step_eq s⟩
    rw [run_succ m s u hu] at h
    rw [Nat.succ_add, run_succ (m + n) s u hu, ih u h]

/-- Settles O39, by induction on the waiting cycles: each is a STALL, which takes itself off the list. -/
theorem stallLastsWhileTheConsumerWaits : Obligations.StallLastsWhileTheConsumerWaits := by
  intro cs rest s hov hlist hwait
  induction cs generalizing s with
  | nil => rw [List.nil_append] at hlist; subst hlist; rfl
  | cons c cs ih =>
    obtain ⟨⟨hrst, hready⟩, hcs⟩ := List.forall_mem_cons.mp hwait
    have hinputs := s.inputs_of_stimulus c (cs ++ rest) hlist
    have hstall := step_of_stall s (by rwa [hinputs]) hov (by rwa [hinputs])
    rw [s.nextCycle_of_listed c (cs ++ rest) hlist] at hstall
    exact (run_succ cs.length s _ hstall).trans (ih { s with stimulus := cs ++ rest } hov rfl hcs)

/-- A cycle that offers the beat of `w` to a block with a ready consumer (SEND of R72). -/
def sendCycle (w : InWord) : CycleInputs := ⟨false, true, true, w⟩

/-- With a ready consumer and no reset, whatever is held is delivered. -/
theorem State.afterDelivery_of_ready (s : State) (hrst : s.inputs.rst = false) (hready : s.inputs.outReady = true) :
    s.afterDelivery.ov = false ∧ s.afterDelivery.delivered = s.delivered ++ s.held := by
  cases hov : s.ov <;>
    simp [State.afterDelivery, s.ports_eq, State.held, hrst, hready, hov]

/-- A SEND cycle delivers what is held and takes the beat (R73). -/
theorem step_of_sendCycle (s : State) (w : InWord) (rest : List CycleInputs) (hlist : s.stimulus = sendCycle w :: rest) :
    ∃ t, step s = .next t ∧ t.ov = true ∧ t.outData = beatImage s.tiePolicy (InBeat.ofWord w) ∧
      t.accepted = s.accepted ++ [InBeat.ofWord w] ∧ t.delivered = s.delivered ++ s.held ∧ t.stimulus = rest ∧
      t.tiePolicy = s.tiePolicy := by
  have hinputs := s.inputs_of_stimulus _ rest hlist
  have hrst : s.inputs.rst = false := by rw [hinputs]; rfl
  have hready : s.inputs.outReady = true := by rw [hinputs]; rfl
  have hbeat : s.offeredBeat = InBeat.ofWord w := by rw [State.offeredBeat, hinputs]; rfl
  have hfire := s.inFire_iff.mpr ⟨hrst, by rw [hinputs]; rfl, .inr hready⟩
  obtain ⟨-, hdelivered⟩ := s.afterDelivery_of_ready hrst hready
  refine ⟨_, step_of_inFire s hfire, ?_⟩
  rw [hbeat]
  refine ⟨by simp, by simp, by simp, ?_, by simp [hlist], by simp⟩
  rw [State.nextCycle_delivered, State.load_delivered, hdelivered]

/-- A cycle without an offer and with a ready consumer delivers what is held (IDLE of R72). -/
theorem step_of_drainCycle (s : State) (w : InWord) (rest : List CycleInputs)
    (hlist : s.stimulus = ⟨false, false, true, w⟩ :: rest) :
    ∃ t, step s = .next t ∧ t.ov = false ∧ t.accepted = s.accepted ∧ t.delivered = s.delivered ++ s.held ∧
      t.stimulus = rest := by
  have hinputs := s.inputs_of_stimulus _ rest hlist
  have hrst : s.inputs.rst = false := by rw [hinputs]
  have hnofire : ¬ s.inFire = true := by simp [s.inFire_iff, hinputs]
  obtain ⟨hov, hdelivered⟩ := s.afterDelivery_of_ready hrst (by rw [hinputs])
  refine ⟨_, step_of_no_reset s hrst, ?_⟩
  rw [State.afterTransfers, if_neg hnofire]
  refine ⟨by simpa using hov, by simp, ?_, by simp [hlist]⟩
  rw [State.nextCycle_delivered, hdelivered]

/-- Settles O40: the waiting cycles stall, and the cycle with the ready consumer is a SEND. -/
theorem heldOfferIsTakenOnce : Obligations.HeldOfferIsTakenOnce := by
  intro n w rest s hov hlist
  have hwait : ∀ c ∈ List.replicate n (⟨false, true, false, w⟩ : CycleInputs), c.rst = false ∧ c.outReady = false := by
    intro c hc
    rw [List.eq_of_mem_replicate hc]
    exact ⟨rfl, rfl⟩
  have hstalls := stallLastsWhileTheConsumerWaits _ _ s hov hlist hwait
  rw [List.length_replicate] at hstalls
  obtain ⟨t, hstep, hfull, hdata, haccepted, hdelivered, hrest, -⟩ :=
    step_of_sendCycle { s with stimulus := sendCycle w :: rest } w rest rfl
  have hheld : State.held { s with stimulus := sendCycle w :: rest } = [s.outData] := State.held_of_full _ hov
  rw [hheld] at hdelivered
  exact ⟨t, (run_append n 1 s _ hstalls).trans (run_succ 0 _ t hstep), hfull, hdata, haccepted, hdelivered, hrest⟩

/-- Under the producer's duty, an offer that no input fire has taken is the offer of the cycle `k` steps later, in a block
with the same tie policy. -/
theorem offer_kept_without_fire (run : Nat → State) (k : Nat)
    (hrun : ∀ j < k, step (run j) = .next (run (j + 1)) ∧ offerHeld (run j) (run (j + 1)) = true ∧
      (run j).inFire = false) (hvalid : (run 0).inputs.inValid = true) :
    (run k).inputs.inValid = true ∧ (run k).inputs.inData = (run 0).inputs.inData ∧
      (run k).tiePolicy = (run 0).tiePolicy := by
  induction k with
  | zero => exact ⟨hvalid, rfl, rfl⟩
  | succ k ih =>
    obtain ⟨hoffered, hdata, hpolicy⟩ := ih fun j hj => hrun j (by omega)
    obtain ⟨hstep, hheld, hnofire⟩ := hrun k (by omega)
    have hnotready : (run k).inReady = false := by simpa [State.inFire, hoffered] using hnofire
    obtain ⟨hoffered', hdata'⟩ : (run (k + 1)).inputs.inValid = true ∧
        (run (k + 1)).inputs.inData = (run k).inputs.inData := by
      simpa [offerHeld, hoffered, hnotready] using hheld
    obtain ⟨t, ht, hpolicy'⟩ := everyStepAnswersNext.1 (run k)
    obtain rfl : t = run (k + 1) := by simpa [ht] using hstep
    exact ⟨hoffered', hdata'.trans hdata, hpolicy'.trans hpolicy⟩

/-- Settles O41: the beat that the fire loads is the offered one, and that has been the first cycle's all along. -/
theorem heldOfferIsThePixelTaken : Obligations.HeldOfferIsThePixelTaken := by
  intro n run hrun hvalid hfire
  obtain ⟨-, hdata, hpolicy⟩ := offer_kept_without_fire run n hrun hvalid
  have hbeat : (run n).offeredBeat = (run 0).offeredBeat := by rw [State.offeredBeat, hdata]; rfl
  exact ⟨_, step_of_inFire (run n) hfire, by simp [hbeat], by simp [hbeat, hpolicy]⟩

/-- A run of SEND cycles: every beat is accepted, and `Out` with what is held gains their images in order. After at least
one of them the register is full. -/
theorem run_of_sendCycles (ws : List InWord) (rest : List CycleInputs) (s : State)
    (hlist : s.stimulus = ws.map sendCycle ++ rest) :
    ∃ t, Host.Core.run Sys2Proof.core ws.length s = .next t ∧ t.stimulus = rest ∧
      t.accepted = s.accepted ++ ws.map InBeat.ofWord ∧
      t.delivered ++ t.held = s.delivered ++ s.held ++ ws.map (fun w => beatImage s.tiePolicy (InBeat.ofWord w)) ∧
      (t.ov = false → ws = []) := by
  induction ws generalizing s with
  | nil => exact ⟨s, rfl, hlist, by simp, by simp, fun _ => rfl⟩
  | cons w ws ih =>
    obtain ⟨u, hstep, hfull, hdata, haccepted, hdelivered, hu, hpolicy⟩ := step_of_sendCycle s w _ hlist
    obtain ⟨t, hrun, ht, haccepted', hout, hov⟩ := ih u hu
    refine ⟨t, (run_succ ws.length s u hstep).trans hrun, ht, ?_, ?_, fun hempty => ?_⟩
    · simp [haccepted', haccepted]
    · simp [hout, hdelivered, u.held_of_full hfull, hdata, hpolicy]
    · obtain rfl := hov hempty
      obtain rfl : u = t := Host.Outcome.next.inj hrun
      simp [hfull] at hempty

/-- Settles O49: the SEND cycles leave the last image held, and the cycle without an offer delivers it. -/
theorem onePixelPerCycle : Obligations.OnePixelPerCycle := by
  intro ws w rest s hov hlist
  obtain ⟨u, hrun, hu, haccepted, hout, -⟩ := run_of_sendCycles ws _ s hlist
  obtain ⟨t, hstep, hempty, haccepted', hdelivered, hrest⟩ := step_of_drainCycle u w rest hu
  rw [s.held_of_empty hov, List.append_nil] at hout
  exact ⟨t, (run_append ws.length 1 s u hrun).trans (run_succ 0 u t hstep), hempty, haccepted'.trans haccepted,
    hdelivered.trans hout, hrest⟩

end Sys2Proof.Machine

/-! ### A raster in row-major order, and the time a frame takes (R124, R131, R175) -/

namespace Sys2Proof.Machine

/-- The beats of a raster are well framed (R124). -/
theorem wellFramed_rasterBeats (f : Raster) (hf : f.wf = true) :
    wellFramed f.width f.rows.length (rasterBeats f) = true := by
  obtain ⟨hw, hh, -⟩ := f.wf_iff.mp hf
  have hmarks : ∀ p ∈ (rasterBeats f).zipIdx, p.1.sof = (p.2 == 0) ∧ p.1.eol = (p.2 % f.width == f.width - 1) := by
    rintro ⟨beat, k⟩ hmem
    obtain ⟨px, rfl⟩ := exists_frameBeat_of_getElem? f hf k beat (List.mem_zipIdx_iff_getElem?.mp hmem)
    exact ⟨rfl, rfl⟩
  simpa [wellFramed, hw, hh, rasterBeats_length f hf] using hmarks

/-- Settles O50: the beat at `y * W + x` has the marks of its index, whose remainder by `W` is `x`. -/
theorem rasterIsPresentedRowMajor : Obligations.RasterIsPresentedRowMajor := by
  refine fun f hf => ⟨rasterBeats_length f hf, wellFramed_rasterBeats f hf, fun x y px hpx => ?_⟩
  have hx := lt_width_of_pixelAt f hf x y px hpx
  rw [rasterBeats_getElem? f hf x y hx, hpx]
  simp [frameBeat, Nat.mod_eq_of_lt hx]

/-- Of delivered beats that are an initial part of beats and a raster's images after them, the raster's frame is complete
exactly when they reach its end (R131). -/
theorem frameComplete_raster_iff (p : TiePolicy) (f : Raster) (hf : f.wf = true) (before out : List OutWord)
    (hout : out <+: before ++ (rasterBeats f).map (beatImage p)) :
    frameComplete f.width f.rows.length (before.countP startsFrame) out = true ↔
      before.length + f.width * f.rows.length ≤ out.length := by
  obtain ⟨first, tail, hbeats, hfirst, htail⟩ := rasterBeats_eq_cons f hf
  have hsize : f.width * f.rows.length = (tail.map (beatImage p)).length + 1 := by
    rw [← rasterBeats_length f hf, hbeats, List.length_cons, List.length_map]
  rw [hbeats, List.map_cons, ← List.append_nil (tail.map _)] at hout
  exact frameComplete_iff _ _ _ _ _ _ _ hsize (by simpa using hfirst) (by simpa using htail) hout

/-- After `k` of the SEND cycles of beats, an empty block has delivered an initial part of what it will, and fewer than
`k` beats more unless `k = 0`. -/
theorem delivered_of_run_of_sendCycles (ws : List InWord) (rest : List CycleInputs) (s u : State) (k : Nat)
    (hov : s.ov = false) (hlist : s.stimulus = ws.map sendCycle ++ rest) (hk : k ≤ ws.length)
    (hrun : Host.Core.run Sys2Proof.core k s = .next u) :
    u.delivered <+: s.delivered ++ ws.map (fun w => beatImage s.tiePolicy (InBeat.ofWord w)) ∧
      u.delivered.length ≤ s.delivered.length + (k - 1) := by
  have hsplit : s.stimulus = (ws.take k).map sendCycle ++ ((ws.drop k).map sendCycle ++ rest) := by
    rw [hlist, ← List.append_assoc, ← List.map_append, List.take_append_drop]
  obtain ⟨t, ht, -, -, hout, hempty⟩ := run_of_sendCycles (ws.take k) _ s hsplit
  rw [List.length_take, Nat.min_eq_left hk, hrun] at ht
  obtain rfl : u = t := Host.Outcome.next.inj ht
  rw [s.held_of_empty hov, List.append_nil] at hout
  constructor
  · refine (List.prefix_append u.delivered u.held).trans ?_
    rw [hout]
    exact (List.prefix_append_right_inj _).mpr ((List.take_prefix k ws).map _)
  · have hlength := congrArg List.length hout
    simp only [List.length_append, State.held_length, List.length_map, List.length_take, Nat.min_eq_left hk] at hlength
    cases hu : u.ov with
    | false =>
      have hnone := congrArg List.length (hempty hu)
      rw [List.length_take, Nat.min_eq_left hk, List.length_nil] at hnone
      rw [hu, Bool.toNat_false] at hlength
      omega
    | true =>
      rw [hu, Bool.toNat_true] at hlength
      omega

/-- Settles O52: the raster's beats are SEND cycles, the last of which is delivered in the cycle after them. -/
theorem frameTakesOneCycleMoreThanItsPixels : Obligations.FrameTakesOneCycleMoreThanItsPixels := by
  intro s f w rest hf hov hlist
  obtain ⟨hw, hh, -⟩ := f.wf_iff.mp hf
  have hpos : 0 < f.width * f.rows.length := Nat.mul_pos hw hh
  have hsends : s.stimulus =
      ((rasterBeats f).map InBeat.toWord).map sendCycle ++ ⟨false, false, true, w⟩ :: rest := by
    rw [hlist, List.map_map]; rfl
  obtain ⟨t, hrun, hempty, haccepted, hdelivered, -⟩ := onePixelPerCycle _ w rest s hov hsends
  simp only [List.length_map, List.map_map, Function.comp_def, InBeat.ofWord_toWord, List.map_id',
    rasterBeats_length f hf] at hrun haccepted hdelivered
  refine ⟨t, hrun, hempty, haccepted, hdelivered, ?_, fun k u hk hu => ?_⟩
  · rw [frameComplete_raster_iff s.tiePolicy f hf _ _ (hdelivered ▸ List.prefix_rfl), hdelivered]
    simp [rasterBeats_length f hf]
  · obtain ⟨hprefix, hshort⟩ := delivered_of_run_of_sendCycles _ _ s u k hov hsends
      (by simpa [rasterBeats_length f hf] using hk) hu
    simp only [List.map_map, Function.comp_def, InBeat.ofWord_toWord] at hprefix
    rw [← Bool.not_eq_true, frameComplete_raster_iff s.tiePolicy f hf _ _ hprefix]
    omega

end Sys2Proof.Machine

/-! ### The order and the capacity of the transaction-level model (R120, R130) -/

namespace Sys2Proof.Machine

/-- The stream contract at the transaction level: `Out` followed by the queue is the image of `In`, and the queue is
within its capacity (R120, R130). -/
def Tlm.Inv (m : Tlm) : Prop :=
  m.delivered ++ m.queue = m.accepted.map (beatImage m.tiePolicy) ∧ m.queue.length ≤ m.depth

/-- What a move keeps: the contract, under the same capacity and tie policy. -/
def Tlm.Keeps (m m' : Tlm) : Prop := m'.Inv ∧ m'.depth = m.depth ∧ m'.tiePolicy = m.tiePolicy

/-- A delivery moves the head of the queue to the end of `Out`. -/
theorem Tlm.Inv.deliverHead {m m' : Tlm} (h : m.Inv) (hm : m.deliverHead = some m') : m.Keeps m' := by
  obtain ⟨horder, hroom⟩ := h
  unfold Tlm.deliverHead at hm
  split at hm
  · cases hm
  · rename_i head rest hqueue
    cases hm
    rw [hqueue] at horder hroom
    refine ⟨⟨by simpa using horder, ?_⟩, rfl, rfl⟩
    exact (Nat.le_succ _).trans hroom

/-- An acceptance adds a beat to `In` and its image to the end of the queue. -/
theorem Tlm.Inv.acceptBeat {m m' : Tlm} (h : m.Inv) (beat : InBeat) (hm : m.acceptBeat beat = some m') : m.Keeps m' := by
  obtain ⟨horder, -⟩ := h
  unfold Tlm.acceptBeat at hm
  split at hm
  · rename_i hspace
    cases hm
    refine ⟨⟨?_, by simpa using hspace⟩, rfl, rfl⟩
    rw [List.map_append, ← horder, List.append_assoc]
    rfl
  · cases hm

/-- Every possible move keeps the contract: a reset leaves empty lists, any other move is a delivery and an acceptance. -/
theorem Tlm.Inv.step {m m' : Tlm} (h : m.Inv) (move : TlmMove) (hm : m.step move = some m') : m.Keeps m' := by
  unfold Tlm.step at hm
  split at hm
  · cases hm
    exact ⟨⟨rfl, Nat.zero_le _⟩, rfl, rfl⟩
  · have hdeliver : ∀ u, (if move.deliver then m.deliverHead else some m) = some u → m.Keeps u := by
      intro u hu
      split at hu
      · exact h.deliverHead hu
      · cases hu
        exact ⟨h, rfl, rfl⟩
    generalize (if move.deliver then m.deliverHead else some m) = delivered at hm hdeliver
    rcases delivered with _ | u
    · cases hm
    obtain ⟨hinv, hdepth, hpolicy⟩ := hdeliver u rfl
    cases hoffer : move.offer with
    | none =>
      obtain rfl : u = m' := by simpa [hoffer] using hm
      exact ⟨hinv, hdepth, hpolicy⟩
    | some beat =>
      obtain ⟨hinv', hdepth', hpolicy'⟩ := hinv.acceptBeat beat (by simpa [hoffer] using hm)
      exact ⟨hinv', hdepth'.trans hdepth, hpolicy'.trans hpolicy⟩

/-- Settles O54: the contract of the transaction level, kept by every move. -/
theorem transactionModelKeepsOrder : Obligations.TransactionModelKeepsOrder := by
  intro m m' move horder hroom hstep
  obtain ⟨⟨horder', hroom'⟩, hdepth, hpolicy⟩ := Tlm.Inv.step ⟨horder, hroom⟩ move hstep
  exact ⟨horder', hroom', hdepth, hpolicy⟩

end Sys2Proof.Machine

/-! ### An environment that reacts within the cycle (R151, R170) -/

namespace Sys2Proof.Machine

/-- The environment's `out_ready` is the same whatever `in_ready` and `out_ready` are on its wires (R170). -/
def State.NoLoop (s : State) (rst : Bool) (producer : Producer) (consumer : Consumer) : Prop :=
  ∀ inReady outReady, s.outReadyAnswer rst producer consumer inReady outReady =
    s.outReadyAnswer rst producer consumer true true

/-- The inputs of the cycle of an environment that answers `outReady`. -/
def State.resolvedInputs (s : State) (rst : Bool) (producer : Producer) (outReady : Bool) : CycleInputs :=
  let offer := producer (inReadyOf rst s.ov outReady) (outValidOf rst s.ov) s.outData outReady
  ⟨rst, offer.1, outReady, offer.2⟩

/-- The model tests the four values of the wires (R170). -/
theorem State.noLoop_iff (s : State) (rst : Bool) (producer : Producer) (consumer : Consumer) :
    s.NoLoop rst producer consumer ↔
      s.outReadyAnswer rst producer consumer true false = s.outReadyAnswer rst producer consumer true true ∧
      s.outReadyAnswer rst producer consumer false true = s.outReadyAnswer rst producer consumer true true ∧
      s.outReadyAnswer rst producer consumer false false = s.outReadyAnswer rst producer consumer true true := by
  simp [State.NoLoop, and_comm, and_assoc]

/-- An environment without a loop is resolved by its one `out_ready`. -/
theorem resolveCycle_of_noLoop (s : State) (rst : Bool) (producer : Producer) (consumer : Consumer)
    (h : s.NoLoop rst producer consumer) :
    resolveCycle s rst producer consumer =
      .ok (s.resolvedInputs rst producer (s.outReadyAnswer rst producer consumer true true)) :=
  if_pos ((s.noLoop_iff rst producer consumer).mp h)

/-- An environment with a loop is refused (R170). -/
theorem resolveCycle_of_loop (s : State) (rst : Bool) (producer : Producer) (consumer : Consumer)
    (h : ¬ s.NoLoop rst producer consumer) : resolveCycle s rst producer consumer = .error .combinationalLoop :=
  if_neg fun hc => h ((s.noLoop_iff rst producer consumer).mpr hc)

/-- In a cycle with the inputs `d`, the ports agree with an environment without a loop exactly when `d` is what it is
resolved to: the `out_ready` of `d` is the environment's one answer, and the offer follows from it. -/
theorem eq_resolvedInputs_iff (s : State) (rst : Bool) (producer : Producer) (consumer : Consumer)
    (h : s.NoLoop rst producer consumer) (d : CycleInputs) :
    d = s.resolvedInputs rst producer (s.outReadyAnswer rst producer consumer true true) ↔
      d.rst = rst ∧
      d.outReady = consumer (inReadyOf d.rst s.ov d.outReady) (outValidOf d.rst s.ov) s.outData (d.inValid, d.inData) ∧
      (d.inValid, d.inData) =
        producer (inReadyOf d.rst s.ov d.outReady) (outValidOf d.rst s.ov) s.outData d.outReady := by
  constructor
  · rintro rfl
    exact ⟨rfl, (h _ _).symm, rfl⟩
  · rintro ⟨rfl, hready, hoffer⟩
    rw [hoffer] at hready
    rw [← h (inReadyOf d.rst s.ov d.outReady) d.outReady, State.outReadyAnswer, ← hready, State.resolvedInputs, ← hoffer]

/-- Settles O55: an environment is resolved exactly where it has no loop. -/
theorem resolvedInputsAgreeWithThePorts : Obligations.ResolvedInputsAgreeWithThePorts := by
  intro s rst producer consumer rest
  by_cases h : s.NoLoop rst producer consumer
  · rw [resolveCycle_of_noLoop s rst producer consumer h]
    refine ⟨?_, iff_of_false (by simp) ?_⟩
    · rintro c hc d s' rfl
      cases hc
      exact eq_resolvedInputs_iff s rst producer consumer h d
    · rintro ⟨a, b, a', b', hne⟩
      exact hne ((h a b).trans (h a' b').symm)
  · rw [resolveCycle_of_loop s rst producer consumer h]
    refine ⟨fun c hc => (by cases hc), iff_of_true rfl ?_⟩
    simp only [State.NoLoop, not_forall] at h
    obtain ⟨a, b, hne⟩ := h
    exact ⟨a, b, true, true, hne⟩

end Sys2Proof.Machine

/-! ### The tie policies, and the properties of LUMA (`40_luma_function.md` R86 to R88) -/

namespace Sys2Proof.Machine

/-- LUMA is the rounded value under every policy: the clamp never acts (R85). -/
theorem luma_eq_roundedSum (p : TiePolicy) (r g b : Byte) : (luma p r g b).toNat = (roundedSum p r g b).toNat :=
  luma_toNat p r g b (roundedSum_le p r g b)

/-- Settles O4: off a tie every policy rounds to nearest. -/
theorem tiePoliciesAgreeOffTies : Obligations.TiePoliciesAgreeOffTies := by
  intro p r g b hoff
  rw [luma_eq_roundedSum, roundedSum_off_tie p r g b hoff]

/-- On a tie LUMA is one of the two neighbours, under every policy (R87, D9). -/
theorem luma_on_tie (p : TiePolicy) (r g b : Byte)
    (htie : (299 * r.toNat + 587 * g.toNat + 114 * b.toNat) % 1000 = 500) :
    (luma p r g b).toNat = (299 * r.toNat + 587 * g.toNat + 114 * b.toNat) / 1000 ∨
    (luma p r g b).toNat = (299 * r.toNat + 587 * g.toNat + 114 * b.toNat) / 1000 + 1 := by
  rw [← weightedSum_toNat] at htie ⊢
  rw [luma_eq_roundedSum]
  exact roundedSum_on_tie p r g b htie

/-- On a tie EVEN adds to the lower neighbour its own parity (R87). -/
theorem luma_even_on_tie (r g b : Byte) (htie : (299 * r.toNat + 587 * g.toNat + 114 * b.toNat) % 1000 = 500) :
    (luma .even r g b).toNat = (299 * r.toNat + 587 * g.toNat + 114 * b.toNat) / 1000 +
      (299 * r.toNat + 587 * g.toNat + 114 * b.toNat) / 1000 % 2 := by
  rw [← weightedSum_toNat] at htie ⊢
  rw [luma_eq_roundedSum]
  have hodd : (lowerNeighbour (weightedSum r g b)).getLsbD 0 = true ↔ (weightedSum r g b).toNat / 1000 % 2 = 1 := by
    rw [← lowerNeighbour_toNat, BitVec.getLsbD, Nat.testBit_zero, decide_eq_true_iff]
  simp only [roundedSum, (isTie_iff _).mpr htie, if_true, hodd]
  split_ifs with h
  · rw [upperNeighbour_toNat, h]
  · rw [lowerNeighbour_toNat]; omega

/-- Settles O5: UP rounds half up, EVEN adds the parity, and every policy gives a neighbour. -/
theorem tiePoliciesOnTies : Obligations.TiePoliciesOnTies := by
  refine ⟨?_, by decide, by decide⟩
  rintro r g b S rfl htie
  refine ⟨?_, ?_, luma_on_tie .float64Ref r g b htie, luma_on_tie .draw r g b htie⟩
  · rw [luma_eq_roundedSum, roundedSum_up_toNat]; omega
  · rw [luma_even_on_tie r g b htie]
    split_ifs <;> omega

/-- Settles O6: a gray pixel is its own image, so it reaches its own value. -/
theorem grayMapsToItself : Obligations.GrayMapsToItself :=
  ⟨luma_gray, fun p y => ⟨y, y, y, luma_gray p y⟩⟩

/-- Under every policy LUMA is nearest to the exact value: it is within half a unit of it (R86, R87). -/
theorem luma_nearest (p : TiePolicy) (r g b : Byte) :
    1000 * (luma p r g b).toNat ≤ 299 * r.toNat + 587 * g.toNat + 114 * b.toNat + 500 ∧
    299 * r.toNat + 587 * g.toNat + 114 * b.toNat ≤ 1000 * (luma p r g b).toNat + 500 := by
  by_cases htie : (299 * r.toNat + 587 * g.toNat + 114 * b.toNat) % 1000 = 500
  · rcases luma_on_tie p r g b htie with h | h <;> omega
  · have h := tiePoliciesAgreeOffTies p r g b htie
    omega

/-- The triples within half a unit of black are these seven, none of which is a tie. -/
theorem weighted_le_half_iff (r g b : Nat) :
    299 * r + 587 * g + 114 * b ≤ 500 ↔ g = 0 ∧ (r = 0 ∧ b ≤ 4 ∨ r = 1 ∧ b ≤ 1) := by
  omega

/-- LUMA is 0 exactly within half a unit of black (R88). -/
theorem luma_eq_zero_iff (p : TiePolicy) (r g b : Byte) :
    luma p r g b = 0 ↔ 299 * r.toNat + 587 * g.toNat + 114 * b.toNat ≤ 500 := by
  have hnear := luma_nearest p r g b
  have hfew := weighted_le_half_iff r.toNat g.toNat b.toNat
  rw [← BitVec.toNat_inj, show (0 : Byte).toNat = 0 from rfl]
  omega

/-- LUMA is 255 exactly where the complements of the channels are within half a unit of black (R88). -/
theorem luma_eq_max_iff (p : TiePolicy) (r g b : Byte) :
    luma p r g b = 255 ↔ 299 * (~~~r).toNat + 587 * (~~~g).toNat + 114 * (~~~b).toNat ≤ 500 := by
  have hnear := luma_nearest p r g b
  have hfew := weighted_le_half_iff (~~~r).toNat (~~~g).toNat (~~~b).toNat
  have hr := r.isLt; have hg := g.isLt; have hb := b.isLt; have hy := (luma p r g b).isLt
  rw [← BitVec.toNat_inj, show (255 : Byte).toNat = 255 from rfl]
  simp only [BitVec.toNat_not] at *
  omega

/-- The triples that R88 lists for the value 0. -/
def blackTriples : List (Byte × Byte × Byte) :=
  [(0, 0, 0), (0, 0, 1), (0, 0, 2), (0, 0, 3), (0, 0, 4), (1, 0, 0), (1, 0, 1)]

/-- The triples that R88 lists for the value 255. -/
def whiteTriples : List (Byte × Byte × Byte) :=
  [(254, 255, 254), (254, 255, 255), (255, 255, 251), (255, 255, 252), (255, 255, 253), (255, 255, 254), (255, 255, 255)]

/-- The listed triples for 0 are those within half a unit of black. -/
theorem mem_blackTriples_iff (r g b : Byte) :
    (r, g, b) ∈ blackTriples ↔ 299 * r.toNat + 587 * g.toNat + 114 * b.toNat ≤ 500 := by
  constructor
  · have hall : ∀ t ∈ blackTriples, 299 * t.1.toNat + 587 * t.2.1.toNat + 114 * t.2.2.toNat ≤ 500 := by simp [blackTriples]
    exact hall (r, g, b)
  · intro h
    obtain ⟨hg, ⟨hr, hb⟩ | ⟨hr, hb⟩⟩ := (weighted_le_half_iff _ _ _).mp h
    · obtain rfl : g = 0 := BitVec.eq_of_toNat_eq hg
      obtain rfl : r = 0 := BitVec.eq_of_toNat_eq hr
      have hall : ∀ n ≤ 4, (0, 0, BitVec.ofNat 8 n) ∈ blackTriples := by
        intro n hn
        interval_cases n <;> decide
      simpa using hall b.toNat hb
    · obtain rfl : g = 0 := BitVec.eq_of_toNat_eq hg
      obtain rfl : r = 1 := BitVec.eq_of_toNat_eq hr
      have hall : ∀ n ≤ 1, (1, 0, BitVec.ofNat 8 n) ∈ blackTriples := by
        intro n hn
        interval_cases n <;> decide
      simpa using hall b.toNat hb

/-- The listed triples for 255 are the complements of those for 0. -/
theorem mem_whiteTriples_iff (r g b : Byte) : (r, g, b) ∈ whiteTriples ↔ (~~~r, ~~~g, ~~~b) ∈ blackTriples := by
  constructor
  · have hall : ∀ t ∈ whiteTriples, (~~~t.1, ~~~t.2.1, ~~~t.2.2) ∈ blackTriples := by simp [whiteTriples, blackTriples]
    exact hall (r, g, b)
  · have hall : ∀ t ∈ blackTriples, (~~~t.1, ~~~t.2.1, ~~~t.2.2) ∈ whiteTriples := by simp [whiteTriples, blackTriples]
    intro h
    simpa only [BitVec.not_not] using hall _ h

/-- Settles O7: the seven triples within half a unit of black, and their complements. -/
theorem sevenTriplesGiveEachExtreme : Obligations.SevenTriplesGiveEachExtreme :=
  fun p r g b => ⟨(luma_eq_zero_iff p r g b).trans (mem_blackTriples_iff r g b).symm,
    (luma_eq_max_iff p r g b).trans ((mem_blackTriples_iff _ _ _).symm.trans (mem_whiteTriples_iff r g b).symm)⟩

/-- Rounding half to even of thousandths (R87). -/
def halfEven (S : Nat) : Nat := if S % 1000 = 500 then S / 1000 + S / 1000 % 2 else (S + 500) / 1000

/-- Rounding half to even is monotone: a lower tie does not go above a higher sum of the same unit. -/
theorem halfEven_mono {S S' : Nat} (h : S ≤ S') : halfEven S ≤ halfEven S' := by
  unfold halfEven
  split_ifs <;> omega

/-- EVEN is rounding half to even (R87). -/
theorem luma_even_toNat (r g b : Byte) :
    (luma .even r g b).toNat = halfEven (299 * r.toNat + 587 * g.toNat + 114 * b.toNat) := by
  unfold halfEven
  split_ifs with htie
  · exact luma_even_on_tie r g b htie
  · exact tiePoliciesAgreeOffTies .even r g b htie

/-- Settles O8: the sum is monotone in each channel, and so are the two roundings. -/
theorem lumaIsMonotone : Obligations.LumaIsMonotone := by
  intro p r g b r' g' b' hp hr hg hb
  have hsum : 299 * r.toNat + 587 * g.toNat + 114 * b.toNat ≤ 299 * r'.toNat + 587 * g'.toNat + 114 * b'.toNat := by
    omega
  rcases hp with rfl | rfl
  · rw [luma_eq_roundedSum, luma_eq_roundedSum, roundedSum_up_toNat, roundedSum_up_toNat]
    omega
  · rw [luma_even_toNat, luma_even_toNat]
    exact halfEven_mono hsum

end Sys2Proof.Machine

/-! ### The stimulus word (`30_encoding.md` R71) -/

namespace Sys2Proof

/-- Taking a stimulus word apart and putting it together gives the word back (R71). -/
@[simp] theorem CycleInputs.toStimWord_ofStimWord (w : StimWord) : (CycleInputs.ofStimWord w).toStimWord = w := by
  apply BitVec.eq_of_getLsbD_eq
  intro i hi
  rw [CycleInputs.toStimWord_bit]
  split_ifs with hdata hready hvalid hrst
  · simp [CycleInputs.ofStimWord, hdata]
  · rw [hready]; rfl
  · rw [hvalid]; rfl
  · rw [hrst]; rfl
  · omega

/-- Putting a cycle together and taking it apart gives the cycle back (R71). -/
@[simp] theorem CycleInputs.ofStimWord_toStimWord (c : CycleInputs) : CycleInputs.ofStimWord c.toStimWord = c := by
  have hrst : c.toStimWord.getLsbD 28 = c.rst := by simp only [CycleInputs.toStimWord_bit]; rfl
  have hvalid : c.toStimWord.getLsbD 27 = c.inValid := by simp only [CycleInputs.toStimWord_bit]; rfl
  have hready : c.toStimWord.getLsbD 26 = c.outReady := by simp only [CycleInputs.toStimWord_bit]; rfl
  have hdata : c.toStimWord.extractLsb' 0 26 = c.inData := by
    apply BitVec.eq_of_getLsbD_eq
    intro i hi
    simp [CycleInputs.toStimWord_bit, hi]
  simp only [CycleInputs.ofStimWord, hrst, hvalid, hready, hdata]

/-- Settles O18: the four slices and the two round trips; the example is read by computation. -/
theorem stimulusWordLayout : Obligations.StimulusWordLayout := by
  refine ⟨fun w => ⟨rfl, rfl, rfl, ?_, CycleInputs.toStimWord_ofStimWord w⟩, CycleInputs.ofStimWord_toStimWord, by decide⟩
  rw [CycleInputs.ofStimWord, BitVec.extractLsb'_toNat, Nat.shiftRight_zero]

end Sys2Proof

/-! ### Text that is no value of a field (`30_encoding.md` R68) -/

namespace Sys2Proof.Machine

/-- An X or a Z is no hexadecimal digit. -/
theorem isXOrZ_of_hexValue (c : Char) (n : Nat) (h : hexValue c = some n) : isXOrZ c = false := by
  refine Bool.eq_false_iff.mpr fun hlevel => ?_
  simp only [isXOrZ, Bool.or_eq_true, beq_iff_eq] at hlevel
  rcases hlevel with ((rfl | rfl) | rfl) | rfl <;> simp [hexValue] at h

/-- The two characters of a channel have no X and no Z. -/
theorem isXOrZ_of_readByte (high low : Char) (v : Byte) (h : readByte high low = some v) :
    isXOrZ high = false ∧ isXOrZ low = false := by
  unfold readByte at h
  split at h
  · rename_i hhigh hlow
    exact ⟨isXOrZ_of_hexValue high _ hhigh, isXOrZ_of_hexValue low _ hlow⟩
  · cases h

/-- Settles O21: neither a bit nor the six digits of a pixel have an X or a Z, and any other word is rejected. -/
theorem nonBinaryTextIsRefused : Obligations.NonBinaryTextIsRefused := by
  intro word hlevel
  have hreject : rejectWord word = .notTwoValued := if_pos hlevel
  constructor
  · unfold readBit
    split
    · cases hlevel
    · cases hlevel
    · rw [hreject]
  · unfold readPixel
    split
    · split
      · rename_i hr hg hb
        have hr := isXOrZ_of_readByte _ _ _ hr
        have hg := isXOrZ_of_readByte _ _ _ hg
        have hb := isXOrZ_of_readByte _ _ _ hb
        simp [hr, hg, hb] at hlevel
      · rw [hreject]
    · rw [hreject]

end Sys2Proof.Machine

/-! ### The words of a line of text (`30_encoding.md` R71, R72; notes/assumptions/16.md) -/

namespace Sys2Proof.Machine

/-- A word of a line: letters between spaces. -/
def IsWord (word : List Char) : Prop := word ≠ [] ∧ ' ' ∉ word

/-- The text of words, each after a space. -/
def spaced (words : List (List Char)) : List Char := words.flatMap (' ' :: ·)

@[simp] theorem spaced_nil : spaced [] = [] := rfl
@[simp] theorem spaced_cons (word : List Char) (words : List (List Char)) :
    spaced (word :: words) = ' ' :: (word ++ spaced words) := rfl
@[simp] theorem spaced_append (ws ws' : List (List Char)) : spaced (ws ++ ws') = spaced ws ++ spaced ws' :=
  List.flatMap_append

/-- Letters without a space join the current word. -/
theorem wordsOf_append (letters text word : List Char) (h : ' ' ∉ letters) :
    wordsOf (letters ++ text) word = wordsOf text (letters.reverse ++ word) := by
  induction letters generalizing word with
  | nil => rfl
  | cons c letters ih =>
    simp only [List.mem_cons, not_or] at h
    rw [List.cons_append, wordsOf, if_neg (Ne.symm h.1), ih _ h.2]
    simp

/-- The words of the text of words are these words, after the word that the text finds begun. -/
theorem wordsOf_spaced (words : List (List Char)) (h : ∀ w ∈ words, IsWord w) (word : List Char) :
    wordsOf (spaced words) word = if word = [] then words else word.reverse :: words := by
  induction words generalizing word with
  | nil => cases word <;> simp [wordsOf]
  | cons w words ih =>
    obtain ⟨⟨hne, hspace⟩, hwords⟩ := List.forall_mem_cons.mp h
    have hrest : wordsOf (w ++ spaced words) [] = w :: words := by
      rw [wordsOf_append w _ _ hspace, ih hwords]
      simp [hne]
    rw [spaced_cons, wordsOf, if_pos rfl, hrest]

/-- The words of a text that gives them with a space before it. -/
theorem wordsOf_eq (text : List Char) (words : List (List Char)) (htext : ' ' :: text = spaced words)
    (h : ∀ w ∈ words, IsWord w) : wordsOf text [] = words := by
  have hskip : wordsOf (' ' :: text) [] = wordsOf text [] := by simp [wordsOf]
  rw [← hskip, htext, wordsOf_spaced words h, if_pos rfl]

/-! ### The words that the writer writes -/

/-- The six digits of a beat's pixel. -/
def pixelWord (beat : InBeat) : List Char := writeByte beat.r ++ writeByte beat.g ++ writeByte beat.b

/-- The words of a beat's marks. -/
def markWords (sof eol : Bool) : List (List Char) := (if sof then [['S']] else []) ++ (if eol then [['E']] else [])

/-- The words of a beat. -/
def beatWords (beat : InBeat) : List (List Char) := pixelWord beat :: markWords beat.sof beat.eol

/-- The words that a cycle line begins with. -/
def cycleBitWords (rst inValid outReady : Bool) : List (List Char) :=
  [['C'], [writeBit rst], [writeBit inValid], [writeBit outReady]]

/-- The words of a line. -/
def StimLine.words : StimLine → List (List Char)
  | .cycle rst inValid outReady beat => cycleBitWords rst inValid outReady ++ beatWords beat
  | .reset => ["RESET".toList]
  | .idle => ["IDLE".toList]
  | .send beat => "SEND".toList :: beatWords beat
  | .hold beat => "HOLD".toList :: beatWords beat
  | .block => ["BLOCK".toList]

/-- The word of a repetition. -/
def copiesWord (n : Nat) : List Char := 'x' :: Nat.toDigits 10 n

theorem writeMarks_eq_spaced (sof eol : Bool) : writeMarks sof eol = spaced (markWords sof eol) := by
  cases sof <;> cases eol <;> rfl

theorem writeBeat_eq_spaced (beat : InBeat) : writeBeat beat = spaced (beatWords beat) := by
  simp [writeBeat, beatWords, pixelWord, writeMarks_eq_spaced]

/-- With a space before it, the text of a line is the text of its words. -/
theorem StimLine.write_eq_spaced (line : StimLine) : ' ' :: line.write = spaced line.words := by
  cases line <;> simp [StimLine.write, StimLine.words, writeCycleBits, cycleBitWords, writeBeat_eq_spaced]

theorem writeCopies_eq_spaced (n : Nat) : writeCopies n = spaced [copiesWord n] := by
  simp [writeCopies, copiesWord]

/-! ### The digits -/

/-- A hexadecimal digit is read back. -/
@[simp] theorem hexValue_hexDigit : ∀ n < 16, hexValue (hexDigit n) = some n := by decide

/-- A channel is read back from its two digits. -/
@[simp] theorem readByte_writeByte (v : Byte) :
    readByte (hexDigit (v.toNat / 16)) (hexDigit (v.toNat % 16)) = some v := by
  have hv := v.isLt
  rw [readByte, hexValue_hexDigit _ (by omega), hexValue_hexDigit _ (by omega)]
  simp [Nat.div_add_mod]

/-- Every letter of a pixel is a hexadecimal digit. -/
theorem hexValue_of_mem_pixelWord (beat : InBeat) (c : Char) (hc : c ∈ pixelWord beat) : hexValue c ≠ none := by
  have hdigits : ∀ v : Byte, ∀ c ∈ writeByte v, hexValue c ≠ none := by
    intro v c hc
    have hv := v.isLt
    rcases List.mem_pair.mp hc with rfl | rfl <;> rw [hexValue_hexDigit _ (by omega)] <;> simp
  simp only [pixelWord, List.mem_append] at hc
  rcases hc with (hc | hc) | hc <;> exact hdigits _ c hc

/-- A word without the letter that begins a repetition. -/
def PlainWord (word : List Char) : Prop := IsWord word ∧ 'x' ∉ word

theorem plainWord_pixelWord (beat : InBeat) : PlainWord (pixelWord beat) := by
  have hdigit := hexValue_of_mem_pixelWord beat
  exact ⟨⟨by simp [pixelWord, writeByte], fun h => hdigit ' ' h rfl⟩, fun h => hdigit 'x' h rfl⟩

theorem plainWord_of_mem_markWords (sof eol : Bool) : ∀ w ∈ markWords sof eol, PlainWord w := by
  cases sof <;> cases eol <;> simp [markWords, PlainWord, IsWord]

theorem plainWord_of_mem_beatWords (beat : InBeat) : ∀ w ∈ beatWords beat, PlainWord w :=
  List.forall_mem_cons.mpr ⟨plainWord_pixelWord beat, plainWord_of_mem_markWords beat.sof beat.eol⟩

theorem plainWord_of_mem_cycleBitWords (rst inValid outReady : Bool) :
    ∀ w ∈ cycleBitWords rst inValid outReady, PlainWord w := by
  have hbit : ∀ b, PlainWord [writeBit b] := by
    intro b; cases b <;> simp [writeBit, PlainWord, IsWord]
  have hC : PlainWord ['C'] := by simp [PlainWord, IsWord]
  simp [cycleBitWords, hbit, hC]

/-- The words of a line are plain. -/
theorem StimLine.plainWord_of_mem_words (line : StimLine) : ∀ w ∈ line.words, PlainWord w := by
  cases line with
  | cycle rst inValid outReady beat =>
    exact List.forall_mem_append.mpr
      ⟨plainWord_of_mem_cycleBitWords rst inValid outReady, plainWord_of_mem_beatWords beat⟩
  | reset | idle | block => simp [StimLine.words, PlainWord, IsWord]
  | send beat | hold beat =>
    exact List.forall_mem_cons.mpr ⟨by simp [PlainWord, IsWord], plainWord_of_mem_beatWords beat⟩

/-- Decimal digits are read from the value of those before them. -/
theorem foldl_decimal (digits : List Char) (n : Nat) (h : ∀ c ∈ digits, c.isDigit = true) :
    digits.foldl (fun acc c => acc.bind fun n => if c.isDigit then some (10 * n + (c.toNat - 48)) else none) (some n) =
      some (Nat.ofDigitChars 10 digits n) := by
  induction digits generalizing n with
  | nil => rfl
  | cons c digits ih =>
    obtain ⟨hc, hdigits⟩ := List.forall_mem_cons.mp h
    rw [List.foldl_cons, Option.bind_some, if_pos hc, ih _ hdigits]
    rfl

/-- A number is read back from its decimal digits. -/
theorem readDecimal_toDigits (n : Nat) : readDecimal (Nat.toDigits 10 n) = some n := by
  unfold readDecimal
  split
  · rename_i hnil
    exact absurd hnil Nat.toDigits_ne_nil
  · rw [foldl_decimal _ _ fun c hc => Nat.isDigit_of_mem_toDigits (by omega) (by omega) hc,
      Nat.ofDigitChars_ten_toDigits]

/-! ### The reader on the words -/

theorem readPixel_pixelWord (beat : InBeat) : readPixel (pixelWord beat) = .ok ⟨beat.r, beat.g, beat.b⟩ := by
  simp [pixelWord, writeByte, readPixel]

theorem readMarks_markWords (p : Pixel) (sof eol : Bool) :
    readMarks p (markWords sof eol) = .ok ⟨sof, eol, p.r, p.g, p.b⟩ := by
  cases sof <;> cases eol <;> rfl

/-- A beat is read back from its words. -/
theorem readBeat_beatWords (beat : InBeat) : readBeat (beatWords beat) = .ok beat := by
  rw [beatWords, readBeat, readPixel_pixelWord]
  exact readMarks_markWords _ _ _

/-- Words that begin with a pixel are no marks. -/
theorem readOptionalBeat_beatWords (beat : InBeat) : readOptionalBeat (beatWords beat) = .ok beat := by
  have hpixel : readMarks ⟨0, 0, 0⟩ (beatWords beat) = .error .malformedLine := by
    simp [readMarks, beatWords, pixelWord, writeByte]
  rw [readOptionalBeat, hpixel]
  exact readBeat_beatWords beat

/-- Without a pixel the channels are zero (R71). -/
theorem readOptionalBeat_markWords (sof eol : Bool) :
    readOptionalBeat (markWords sof eol) = .ok ⟨sof, eol, 0, 0, 0⟩ := by
  rw [readOptionalBeat, readMarks_markWords]

theorem readBit_writeBit (b : Bool) : readBit [writeBit b] = .ok b := by
  cases b <;> rfl

/-- A text whose words begin as a cycle line reads as that line with one copy. -/
theorem readLine_of_cycle_words (text : List Char) (rst inValid outReady : Bool) (words : List (List Char)) (beat : InBeat)
    (hwords : wordsOf text [] = cycleBitWords rst inValid outReady ++ words) (hbeat : readOptionalBeat words = .ok beat) :
    readLine text = .ok ⟨.cycle rst inValid outReady beat, 1⟩ := by
  rw [readLine, hwords]
  simp [cycleBitWords, readBit_writeBit, hbeat]

/-- A text of other words reads as a pseudo-instruction with its repetition. -/
theorem readLine_of_pseudo_words (text : List Char) (words body : List (List Char)) (line : StimLine) (n : Nat)
    (hwords : wordsOf text [] = words) (hC : words.head? ≠ some ['C']) (hsplit : splitCopies words = (body, n))
    (hbody : readPseudo body = .ok line) : readLine text = .ok ⟨line, n⟩ := by
  subst hwords
  unfold readLine
  split
  · rename_i hcycle
    exact absurd (congrArg List.head? hcycle) hC
  · simp [hsplit, hbody, Except.map]

/-- A pseudo-instruction is read back from its words (R72). -/
theorem readPseudo_words (line : StimLine) (hline : ∀ rst inValid outReady beat, line ≠ .cycle rst inValid outReady beat) :
    readPseudo line.words = .ok line := by
  cases line with
  | cycle rst inValid outReady beat => exact absurd rfl (hline rst inValid outReady beat)
  | reset => rfl
  | idle => rfl
  | block => rfl
  | send beat => simp [StimLine.words, readPseudo, readBeat_beatWords, Except.map]
  | hold beat => simp [StimLine.words, readPseudo, readBeat_beatWords, Except.map]

/-- Plain words end in no repetition. -/
theorem splitCopies_of_plain (words : List (List Char)) (h : ∀ w ∈ words, PlainWord w) :
    splitCopies words = (words, 1) := by
  unfold splitCopies
  split
  · rename_i digits hlast
    exact absurd List.mem_cons_self (h _ (List.mem_of_getLast? hlast)).2
  · rfl

/-- A repetition after words is split from them. -/
theorem splitCopies_append_copiesWord (words : List (List Char)) (n : Nat) :
    splitCopies (words ++ [copiesWord n]) = (words, n) := by
  simp [splitCopies, copiesWord, readDecimal_toDigits]

/-- The word of a repetition is a word. -/
theorem isWord_copiesWord (n : Nat) : IsWord (copiesWord n) := by
  refine ⟨by simp [copiesWord], fun h => ?_⟩
  rw [copiesWord, List.mem_cons] at h
  rcases h with h | h
  · cases h
  · cases Nat.isDigit_of_mem_toDigits (by omega) (by omega) h

/-- A pseudo-instruction does not begin as a cycle line. -/
theorem StimLine.head_words (line : StimLine) (rest : List (List Char))
    (hline : ∀ rst inValid outReady beat, line ≠ .cycle rst inValid outReady beat) :
    (line.words ++ rest).head? ≠ some ['C'] := by
  cases line with
  | cycle rst inValid outReady beat => exact absurd rfl (hline rst inValid outReady beat)
  | reset | idle | block | send | hold => simp [StimLine.words]

/-- The text of a pseudo-instruction, alone or with its repetition, reads as its line. -/
theorem readLine_of_pseudo (line : StimLine) (hline : ∀ rst inValid outReady beat, line ≠ .cycle rst inValid outReady beat) :
    readLine line.write = .ok ⟨line, 1⟩ ∧ ∀ n, readLine (line.write ++ writeCopies n) = .ok ⟨line, n⟩ := by
  have hplain := line.plainWord_of_mem_words
  have hread := readPseudo_words line hline
  constructor
  · have hwords := wordsOf_eq line.write line.words line.write_eq_spaced fun w hw => (hplain w hw).1
    have hC := line.head_words [] hline
    rw [List.append_nil] at hC
    exact readLine_of_pseudo_words _ _ _ line 1 hwords hC (splitCopies_of_plain _ hplain) hread
  · intro n
    have htext : ' ' :: (line.write ++ writeCopies n) = spaced (line.words ++ [copiesWord n]) := by
      rw [← List.cons_append, line.write_eq_spaced, writeCopies_eq_spaced, spaced_append]
    have hall : ∀ w ∈ line.words ++ [copiesWord n], IsWord w :=
      List.forall_mem_append.mpr ⟨fun w hw => (hplain w hw).1, by simpa using isWord_copiesWord n⟩
    exact readLine_of_pseudo_words _ _ _ line n (wordsOf_eq _ _ htext hall) (line.head_words _ hline)
      (splitCopies_append_copiesWord line.words n) hread

/-- The text of a cycle line without `RRGGBB` reads as zero channels with its marks (R71). -/
theorem readLine_of_cycle_without_pixel (rst inValid outReady sof eol : Bool) :
    readLine (writeCycleBits rst inValid outReady ++ writeMarks sof eol) =
      .ok ⟨.cycle rst inValid outReady ⟨sof, eol, 0, 0, 0⟩, 1⟩ := by
  have htext : ' ' :: (writeCycleBits rst inValid outReady ++ writeMarks sof eol) =
      spaced (cycleBitWords rst inValid outReady ++ markWords sof eol) := by
    rw [writeMarks_eq_spaced, spaced_append]; rfl
  have hplain := List.forall_mem_append.mpr
    ⟨plainWord_of_mem_cycleBitWords rst inValid outReady, plainWord_of_mem_markWords sof eol⟩
  exact readLine_of_cycle_words _ _ _ _ _ _ (wordsOf_eq _ _ htext fun w hw => (hplain w hw).1)
    (readOptionalBeat_markWords sof eol)

/-- Settles O20: the reader finds the words that the writer wrote, and reads each of them back. -/
theorem writtenLinesReadBack : Obligations.WrittenLinesReadBack := by
  refine ⟨fun line => ?_, fun line n hline => (readLine_of_pseudo line hline).2 n, readLine_of_cycle_without_pixel⟩
  cases line with
  | cycle rst inValid outReady beat =>
    have hwords := wordsOf_eq _ _ (StimLine.write_eq_spaced (.cycle rst inValid outReady beat))
      fun w hw => (StimLine.plainWord_of_mem_words _ w hw).1
    exact readLine_of_cycle_words _ _ _ _ _ _ hwords (readOptionalBeat_beatWords beat)
  | reset | idle | send | hold | block => exact (readLine_of_pseudo _ (by simp)).1

end Sys2Proof.Machine
